-- ==== Sys2Proof/Word.lean ====
section
/-! DEFINITION. The word types of the XOR bit-vector engine. -/

namespace Sys2Proof

/-- A byte of a vector or of a payload, and an operand field of the command word (R12, R71). -/
abbrev Byte := BitVec 8

/-- A command, argument, response, value or control-register word (R12). -/
abbrev Word := BitVec 32

/-- A vector `v` as its bytes `v.byte[0] ... v.byte[N-1]` (R13), and a payload as its bytes in order (R70). -/
abbrev Bytes := List Byte

/-- `0v`, the all-zero vector of `n` bytes (R13, R101). -/
def zeroVec (n : Nat) : Bytes := List.replicate n 0#8

end Sys2Proof
end

