-- ==== Sys2Proof/Syntax.lean ====
section
/-! DEFINITION. The syntax of the engine's commands: one constructor for each row of spec/opcode_table.json
(30_encoding.md R77). An operand is the value of its field, neither scaled nor sign-extended (R73 to R76). -/

namespace Sys2Proof

/-- A command (R17, R77). Member, count and control-register operands are 8-bit fields of CMD; a bit index is the whole ARG
word. An input payload is no part of a command: it travels with the transaction (R70). -/
inductive Instr where
  /-- R100: zero member `vd`. -/
  | vzero (vd : Byte)
  /-- R102: read bit `i` of member `vs`. -/
  | bget (vs : Byte) (i : Word)
  /-- R104: write `val` to bit `i` of member `vd`. -/
  | bset (vd : Byte) (i : Word) (val : Bool)
  /-- R106: member `vd` becomes the XOR of members `va` and `vb`. -/
  | vxor (vd va vb : Byte)
  /-- R108: copy member `vs` into member `vd`. -/
  | vcopy (vd vs : Byte)
  /-- R110: member `vd` becomes the input payload. -/
  | vload (vd : Byte)
  /-- R112: emit member `vs`. -/
  | vstore (vs : Byte)
  /-- R131: write `cnt` chunks to the data slots and recompute parity. -/
  | swrite (cnt : Byte)
  /-- R134: emit the data slots into a buffer of `cnt` chunks. -/
  | sread (cnt : Byte)
  /-- R137: regenerate member `idx` from the others. -/
  | srestore (idx : Byte)
  /-- R160: read control register number `csr`. -/
  | csrr (csr : Byte)
  deriving DecidableEq, Repr

end Sys2Proof
end

