-- ==== Sys2Proof/WellFormed.lean ====
section
/-! DEFINITION. Which terms of the syntax are commands of the encoding. Every operand of the syntax has the width of its
field, so the one check left is the control-register number of CSRR: R77 item 4 calls a number above 0x06 an illegal command.
A member index `>= D`, a wrong count and a bit index `>= NBITS` are well formed: they decode, and their execution faults (R84). -/

namespace Sys2Proof

/-- R28, R29: the defined control-register numbers are 0x00 to 0x06. -/
abbrev csrDefined (csr : Byte) : Prop := csr.toNat ≤ 0x06

/-- R77: the term is one of the eleven legal commands. -/
def Instr.wellFormed : Instr → Bool
  | .vzero _ => true
  | .bget _ _ => true
  | .bset _ _ _ => true
  | .vxor _ _ _ => true
  | .vcopy _ _ => true
  | .vload _ => true
  | .vstore _ => true
  | .swrite _ => true
  | .sread _ => true
  | .srestore _ => true
  | .csrr csr => decide (csrDefined csr)

end Sys2Proof
end

