-- ==== Sys2Proof/Decode.lean ====
section
/-! DEFINITION. The command encoding of 30_encoding.md: the fields of the command word (R71), decoding as a total function
of CMD and ARG that rejects by name (R84), the encoder (R71, R72, R77), and the byte order of words on a byte transport
(20_memory.md R53). -/

namespace Sys2Proof

/-! ### The fields of the command word (R71) -/

/-- `OP = CMD[7:0]`. -/
def fieldOp (cmd : Word) : Byte := cmd.extractLsb' 0 8

/-- `A = CMD[15:8]`. -/
def fieldA (cmd : Word) : Byte := cmd.extractLsb' 8 8

/-- `B = CMD[23:16]`. -/
def fieldB (cmd : Word) : Byte := cmd.extractLsb' 16 8

/-- `C = CMD[31:24]`. -/
def fieldC (cmd : Word) : Byte := cmd.extractLsb' 24 8

/-- R71: `CMD = OP | (A << 8) | (B << 16) | (C << 24)`. -/
def packCmd (op a b c : Byte) : Word :=
  op.setWidth 32 ||| (a.setWidth 32 <<< 8) ||| (b.setWidth 32 <<< 16) ||| (c.setWidth 32 <<< 24)

/-! ### Decoding (R84) -/

/-- Why an encoding is illegal: the four cases of R77, and a header cut short, which no transport delivers (R83). -/
inductive IllegalReason where
  /-- R77 item 1: OP is not in the opcode map. -/
  | unlistedOpcode
  /-- R77 item 2: a command field that the format marks 0 is nonzero. -/
  | nonzeroField
  /-- R77 item 3: ARG is nonzero for a command whose format marks ARG 0. -/
  | nonzeroArg
  /-- R77 item 4: CSRR with A above 0x06. -/
  | reservedCsr
  /-- Fewer than the eight header bytes (R83): no transaction at all. -/
  | truncatedHeader
  deriving DecidableEq, Repr

/-- What R84 answers: a command, or Illegal with the reason named. -/
inductive Decoded where
  /-- A legal command. -/
  | command (i : Instr)
  /-- An illegal command. -/
  | illegal (why : IllegalReason)
  deriving DecidableEq, Repr

/-- R72, R77 items 2 and 3: the command `i` is legal when the fields its format marks 0 are 0 and, where the format marks
it 0, ARG is. -/
def requireZero (fields : Bool) (arg : Bool) (i : Instr) : Decoded :=
  if fields = false then .illegal .nonzeroField
  else if arg = false then .illegal .nonzeroArg
  else .command i

/-- R84: decode, a total function of CMD and ARG. It depends on neither D nor N. -/
def decode (cmd arg : Word) : Decoded :=
  let a := fieldA cmd
  let b := fieldB cmd
  let c := fieldC cmd
  let bc := b == 0 && c == 0
  let noArg := arg == 0
  match (fieldOp cmd).toNat with
  | 0x01 => requireZero bc noArg (.vzero a)
  | 0x02 => requireZero bc true (.bget a arg)
  | 0x03 => requireZero (b.extractLsb' 1 7 == 0 && c == 0) true (.bset a arg (b.getLsbD 0))
  | 0x04 => requireZero true noArg (.vxor a b c)
  | 0x05 => requireZero (c == 0) noArg (.vcopy a b)
  | 0x06 => requireZero bc noArg (.vload a)
  | 0x07 => requireZero bc noArg (.vstore a)
  | 0x10 => requireZero bc noArg (.swrite a)
  | 0x11 => requireZero bc noArg (.sread a)
  | 0x12 => requireZero bc noArg (.srestore a)
  | 0x20 => if csrDefined a then requireZero bc noArg (.csrr a) else .illegal .reservedCsr
  | _ => .illegal .unlistedOpcode

/-! ### Encoding (R71, R72, R77) -/

/-- The header of a command: its CMD word and its ARG word. -/
def encode : Instr → Word × Word
  | .vzero vd => (packCmd 0x01 vd 0 0, 0)
  | .bget vs i => (packCmd 0x02 vs 0 0, i)
  | .bset vd i val => (packCmd 0x03 vd ((BitVec.ofBool val).setWidth 8) 0, i)
  | .vxor vd va vb => (packCmd 0x04 vd va vb, 0)
  | .vcopy vd vs => (packCmd 0x05 vd vs 0, 0)
  | .vload vd => (packCmd 0x06 vd 0 0, 0)
  | .vstore vs => (packCmd 0x07 vs 0 0, 0)
  | .swrite cnt => (packCmd 0x10 cnt 0 0, 0)
  | .sread cnt => (packCmd 0x11 cnt 0 0, 0)
  | .srestore idx => (packCmd 0x12 idx 0 0, 0)
  | .csrr csr => (packCmd 0x20 csr 0 0, 0)

/-! ### Words as bytes (R53) -/

/-- R53: a word as bytes, little-endian: byte 0 holds bits 7:0 and byte 3 holds bits 31:24. -/
def wordBytes (w : Word) : Bytes :=
  [w.extractLsb' 0 8, w.extractLsb' 8 8, w.extractLsb' 16 8, w.extractLsb' 24 8]

/-- R53: the word that four bytes carry, `b0` holding bits 7:0. -/
def bytesWord (b0 b1 b2 b3 : Byte) : Word := packCmd b0 b1 b2 b3

/-- R83: the 64-bit header, CMD then ARG, at the front of a list of bytes; none if the list is shorter. -/
def splitHeader : Bytes → Option (Word × Word × Bytes)
  | c0 :: c1 :: c2 :: c3 :: a0 :: a1 :: a2 :: a3 :: rest =>
    some (bytesWord c0 c1 c2 c3, bytesWord a0 a1 a2 a3, rest)
  | _ => none

/-- Decode the header at the front of a list of bytes. -/
def decodeBytes (bytes : Bytes) : Decoded :=
  match splitHeader bytes with
  | some (cmd, arg, _) => decode cmd arg
  | none => .illegal .truncatedHeader

/-- The eight header bytes of an instruction whose low `nbits` bits are `w` and whose other bits are 0: bits 31:0 are CMD
and bits 63:32 are ARG, each word stored little-endian (R53). -/
def tableBytes (nbits w : Nat) : Bytes :=
  (List.range 8).map fun j => BitVec.ofNat 8 (w % 2 ^ nbits / 2 ^ (8 * j))

/-- The instruction the decoder reads from the instruction bits `w`, numbered as spec/opcode_table.json numbers them;
none where it refuses them. -/
def decodeTableWord (nbits w : Nat) : Option Instr :=
  match decodeBytes (tableBytes nbits w) with
  | .command i => some i
  | .illegal _ => none

end Sys2Proof
end

