-- ==== Sys2Proof/Config.lean ====
section
/-! DEFINITION. What a build of the engine fixes (00_scope.md R5, R6): the legal ranges of the two size parameters, the
build that State.reset takes, and the constants the identity registers report. The engine leaves no data value open (R19), so
there is no free value here. -/

namespace Sys2Proof.Config

/-- R5: `1 <= N <= 2^29`, N the number of bytes in every vector register. -/
abbrev LegalN (n : Nat) : Prop := 1 ≤ n ∧ n ≤ 2 ^ 29

/-- R6: `2 <= D <= 256`, D the number of members, the parity member counted. -/
abbrev LegalD (d : Nat) : Prop := 2 ≤ d ∧ d ≤ 256

/-- The N of `State.reset`. DESIGN CHOICE (log 1): the spec leaves N to the build; this is the N of its worked example
(R9). Unsafe: a claim about `State.reset` alone is a claim about this build alone. -/
def resetN : Nat := 4

/-- The D of `State.reset`. DESIGN CHOICE (log 1): the spec leaves D to the build; this is the D of its worked example
(R9). Unsafe: a claim about `State.reset` alone is a claim about this build alone. -/
def resetD : Nat := 4

end Sys2Proof.Config
end

