-- ==== Sys2Proof/Machine/State.lean ====
section
/-! DEFINITION. The state of the engine (10_state.md R20), the transaction interface it is driven through (30_encoding.md R70),
the reasons a step can stop, and the machine right after reset (R41, 70_reset_and_hazards.md R200). -/

namespace Sys2Proof.Machine

/-- R70: what the Host submits: the command word, the argument word and the input payload. -/
structure Transaction where
  cmd : Word
  arg : Word
  payload : Bytes
  deriving DecidableEq, Repr

/-- R70: what the engine answers: RESP (R80), RVAL (R81) and the output payload (R79). -/
structure Response where
  resp : Word
  rval : Word
  payload : Bytes
  deriving DecidableEq, Repr

/-- R17, R18, R201: what the Host does to the block: submit a transaction, or assert reset between two of them. -/
inductive HostEvent where
  | submit (t : Transaction)
  | reset
  deriving DecidableEq, Repr

/-- Why the machine stops with a fault. There is no constructor: nothing stops this engine, since "The step is a total,
deterministic function of its inputs" (R19). The engine's own faults (60_exceptions.md R171) are next states, recorded in
STATUS, FCMD and FARG (R173). DEDUCED (log 6); safe: a type with no member allows no behaviour. -/
inductive Fault where
  deriving DecidableEq, Repr

/-- Why the model gives no next state. -/
inductive Refusal where
  /-- Raised by an arm of exec that has no meaning yet; no arm of this model is one. Safe: the model stops. -/
  | notModelled (mnemonic : String)
  /-- Raised by every command, and by step on an illegal one, when the input payload is not L_in(CMD) bytes long: "A model
  refuses such a transaction; it does not fault it" (R19, R78; log 4). Safe: the model stops. -/
  | misframedPayload
  /-- Raised by exec, never by step, when it is asked to run a command and the Host has submitted none, so that there is no CMD,
  ARG or payload to run it on (log 4). Safe: the model stops. -/
  | noTransaction
  deriving DecidableEq, Repr

/-- R20: the state of the engine, and the two queues of the transaction interface. The constants ID and CAP need no storage:
`csrRead` has them hard-wired (R31, R34; log 5). STATUS.FAULT is the running or faulted condition (R40). -/
structure State where
  /-- The build parameter N, bytes per vector (R5); CFG_N reports it (R32). -/
  n : Nat
  /-- The build parameter D, members in the stripe (R6); CFG_D reports it (R33). -/
  d : Nat
  /-- The vector register file `M[0]` ... `M[D-1]` (R21), each register its N bytes (R23). -/
  members : List Bytes
  /-- STATUS (R35): FAULT in bit 0, FCODE in bits 7:4. -/
  status : Word
  /-- FCMD (R36): the command word of the first faulting command since reset. -/
  fcmd : Word
  /-- FARG (R37): the argument word of the first faulting command since reset. -/
  farg : Word
  /-- The model's own: what the Host has asked for and the engine has not yet taken, oldest first (R54; log 2). -/
  inbox : List HostEvent
  /-- The model's own: the responses given, oldest first (R54; log 2). -/
  outbox : List Response
  deriving DecidableEq, Repr

/-- R41, R200, R202: the reset state of the build with parameters `n` and `d`, nothing submitted and nothing answered. -/
def State.resetFor (n d : Nat) : State where
  n := n
  d := d
  members := List.replicate d (zeroVec n)
  status := 0
  fcmd := 0
  farg := 0
  inbox := []
  outbox := []

/-- The machine right after reset: the reset state of the build of the spec's worked example, D = 4 and N = 4 (R9).
DESIGN CHOICE (log 1): the spec leaves N and D to the build. Every other value is the one R41 states. -/
def State.reset : State := State.resetFor Config.resetN Config.resetD

end Sys2Proof.Machine
end

