-- ==== Sys2Proof/Machine/Flags.lean ====
section
/-! DEFINITION. The engine's only flag, STATUS.FAULT with its code (10_state.md R35, R38, R40), the fault codes
(60_exceptions.md R171) and the response word (30_encoding.md R80). No command writes a flag when it succeeds (R38). -/

namespace Sys2Proof.Machine

/-- The causes of a fault (R171). Codes 0 and 5 to 15 are never raised, so they name nothing here. -/
inductive FaultCode where
  /-- Code 1: an encoding that R77 calls illegal. -/
  | illegalCommand
  /-- Code 2: a member field used by the command is `>= D`. -/
  | memberIndexRange
  /-- Code 3: the count field is not K. -/
  | chunkCountMismatch
  /-- Code 4: the bit index is `>= NBITS`. -/
  | bitIndexRange
  deriving DecidableEq, Repr

/-- R171: the number of a fault code. -/
def faultNumber : FaultCode → BitVec 4
  | .illegalCommand => 1
  | .memberIndexRange => 2
  | .chunkCountMismatch => 3
  | .bitIndexRange => 4

/-- RESP.OUTCOME (R80). The value 3 is never returned, so it names nothing here. -/
inductive RespOutcome where
  /-- 0: the command completed. -/
  | ok
  /-- 1: this command faulted. -/
  | fault
  /-- 2: the engine was already faulted and did not execute it. -/
  | refused
  deriving DecidableEq, Repr

/-- R80: the OUTCOME field, RESP bits 1:0. -/
def outcomeNumber : RespOutcome → BitVec 2
  | .ok => 0
  | .fault => 1
  | .refused => 2

/-- R80: the response word, OUTCOME in bits 1:0 and CODE in bits 7:4. -/
def respWord (outcome : RespOutcome) (code : BitVec 4) : Word :=
  (code.setWidth 32 <<< 4) ||| (outcomeNumber outcome).setWidth 32

/-- R173: what a fault writes to STATUS, `(code << 4) | 1`. -/
def statusWord (code : BitVec 4) : Word := (code.setWidth 32 <<< 4) ||| 1

/-- STATUS.FAULT (R35): the faulted condition (R40). -/
def State.faulted (s : State) : Bool := s.status.getLsbD 0

/-- STATUS.FCODE (R35). -/
def State.fcode (s : State) : BitVec 4 := s.status.extractLsb' 4 4

end Sys2Proof.Machine
end

