-- ==== Sys2Proof/Machine/Operands.lean ====
section
/-! DEFINITION. Operands: the derived constants of a build (00_scope.md R7), the payload framing (30_encoding.md R78), where a
bit index points (R10, R74), and the operand checks with the fault code each raises (R73, R74, R76; 60_exceptions.md R171). -/

namespace Sys2Proof.Machine

/-- R7: `NBITS = 8*N`, bits per vector. -/
def State.nbits (s : State) : Nat := 8 * s.n

/-- R7: `P = D-1`, the parity member index. -/
def State.p (s : State) : Nat := s.d - 1

/-- R7: `K = D-1`, the data-slot count. -/
def State.k (s : State) : Nat := s.d - 1

/-- R78: `L_in(CMD)`, the length of the input payload of every transaction with this command word, legal or not. -/
def lIn (n : Nat) (cmd : Word) : Nat :=
  if fieldOp cmd = 0x06 then n
  else if fieldOp cmd = 0x10 then (fieldA cmd).toNat * n
  else 0

/-- R78 for a command: `L_in` of its command word. -/
def payloadLength (n : Nat) (i : Instr) : Nat := lIn n (encode i).1

/-- R14: `PayloadIn(k)`, the `k`-th N-byte chunk of the input payload, bytes `k*N .. (k+1)*N` (R52, R131). -/
def payloadIn (n : Nat) (payload : Bytes) (k : Nat) : Bytes := (payload.drop (k * n)).take n

/-- R10, R74: the byte a bit index points into, `i >> 3`. -/
def byteIndex (i : Word) : Nat := i.toNat / 8

/-- R10, R74: the bit position within that byte, `i & 7`. -/
def bitPosition (i : Word) : Nat := i.toNat % 8

/-- R73: a member operand names a member when its field is `< D`; otherwise code 2. -/
def checkMember (s : State) (m : Byte) : Option FaultCode :=
  if m.toNat < s.d then none else some .memberIndexRange

/-- R76, R135: the count operand must equal K; otherwise code 3. -/
def checkCount (s : State) (cnt : Byte) : Option FaultCode :=
  if cnt.toNat = s.k then none else some .chunkCountMismatch

/-- R74, R103: the bit index, the whole ARG word, must be `< NBITS`; otherwise code 4. It is never reduced. -/
def checkBit (s : State) (i : Word) : Option FaultCode :=
  if i.toNat < s.nbits then none else some .bitIndexRange

end Sys2Proof.Machine
end

