-- ==== Sys2Proof/Machine/Ops.lean ====
section
/-! DEFINITION. The shared operations: vectors and the register file (00_scope.md R13, 10_state.md R21), the parity and
reconstruction functions (41_stripe.md R132, R136), reading a control register (R28), answering a transaction (R80, R81), taking a
fault (60_exceptions.md R172, R173), the execution frame of every transaction (R174, R175), and reset (R200), the one return from a
fault (R179). -/

namespace Sys2Proof.Machine

/-- The outcomes of this machine. -/
abbrev Result := Host.Outcome State Fault Refusal

/-! ### Vectors (R13) -/

/-- `a ^ b`, byte by byte (R13, R107). -/
def xorVec (a b : Bytes) : Bytes := List.zipWith (fun x y => x ^^^ y) a b

/-- Byte `j` of a vector; 0 for a `j` that does not exist, which no command reads (R103). -/
def byteAt (v : Bytes) (j : Nat) : Byte := v.getD j 0

/-- R102: the bit of `v` that `i` names, `(v.byte[i >> 3] >> (i & 7)) & 1`. -/
def readBit (v : Bytes) (i : Word) : Byte := (byteAt v (byteIndex i) >>> bitPosition i) &&& 1

/-- R104: `v` with `val` at bit `i`: `byte[j] <- (byte[j] AND NOT (1 << k)) OR (val << k)`. -/
def writeBit (v : Bytes) (i : Word) (val : Bool) : Bytes :=
  let j := byteIndex i
  let k := bitPosition i
  v.set j ((byteAt v j &&& ~~~((1 : Byte) <<< k)) ||| ((BitVec.ofBool val).setWidth 8 <<< k))

/-! ### The vector register file (R21 to R25) -/

/-- `M[m]` (R14, R21). For an `m` past the register file, which the checks of R73 keep every command from, the empty list. -/
def State.member (s : State) (m : Nat) : Bytes := s.members.getD m []

/-- `M[m] <- v` (R14). It writes no other register (R25). -/
def State.setMember (s : State) (m : Nat) (v : Bytes) : State := { s with members := s.members.set m v }

/-- R13: `XOR_{j in js} M[j]`, accumulated from `0v`. -/
def State.xorMembers (s : State) (js : List Nat) : Bytes :=
  js.foldl (fun acc j => xorVec acc (s.member j)) (zeroVec s.n)

/-- R132: `Parity(M)`, the XOR of all data members; `M[P]` is not read. -/
def State.parity (s : State) : Bytes := s.xorMembers (List.range s.k)

/-- R136: `Recon(M, i)`, the parity XORed with every data member but `i`; `M[i]` is not read. -/
def State.recon (s : State) (i : Nat) : Bytes :=
  xorVec (s.member s.p) (s.xorMembers ((List.range s.k).filter (fun j => j ≠ i)))

/-- R131: the data slots take the chunks of the payload, in member order. -/
def State.writeData (s : State) (payload : Bytes) : State :=
  (List.range s.k).foldl (fun s' k => s'.setMember k (payloadIn s.n payload k)) s

/-- R134: the bytes of the data slots, member 0 first. -/
def State.readData (s : State) : Bytes := (List.range s.k).flatMap s.member

/-! ### Control registers (R28 to R37) -/

/-- R28: the value of control register number `csr`; none for the reserved numbers 0x07 to 0xFF (R29). ID and CAP are the
constants of R31 and R34; CFG_N and CFG_D report the build (R32, R33). -/
def State.csrRead (s : State) (csr : Byte) : Option Word :=
  match csr.toNat with
  | 0x00 => some 0x00000001
  | 0x01 => some (BitVec.ofNat 32 s.n)
  | 0x02 => some (BitVec.ofNat 32 s.d)
  | 0x03 => some 0x00000001
  | 0x04 => some s.status
  | 0x05 => some s.fcmd
  | 0x06 => some s.farg
  | _ => none

/-! ### Answering a transaction (R80, R81) -/

/-- Append a response (R54: responses are returned in the order of the transactions). -/
def State.respond (s : State) (r : Response) : State := { s with outbox := s.outbox ++ [r] }

/-- R174: the command completed: RESP = 0, with its value word and output payload. -/
def State.respondOk (s : State) (rval : Word) (payload : Bytes) : State :=
  s.respond { resp := respWord .ok 0, rval := rval, payload := payload }

/-- R172, R173: taking a fault. STATUS, FCMD and FARG record it; no member changes, RVAL = 0 and there is no output payload. -/
def State.raiseFault (s : State) (code : FaultCode) (t : Transaction) : State :=
  State.respond
    { s with status := statusWord (faultNumber code), fcmd := t.cmd, farg := t.arg }
    { resp := respWord .fault (faultNumber code), rval := 0, payload := [] }

/-- R175: refusing a transaction while faulted. It records nothing. -/
def State.refuse (s : State) : State :=
  s.respond { resp := respWord .refused s.fcode, rval := 0, payload := [] }

/-! ### The execution frame (R174) -/

/-- Take in the oldest transaction of the Host, whose payload must be `len` bytes (R19, R78), and run `body` on it. The
payload is taken in whatever the command then does (R78). -/
def serve (s : State) (len : Nat) (body : Transaction → State → State) : Result :=
  match s.inbox with
  | .submit t :: rest =>
    if t.payload.length = len then .next (body t { s with inbox := rest }) else .refused .misframedPayload
  | _ => .refused .noTransaction

/-- R174, R175: run a command other than CSRR. `check` is the first precondition it violates, in the order of R174. -/
def transact (i : Instr) (s : State) (check : Option FaultCode) (body : Transaction → State → State) : Result :=
  serve s (payloadLength s.n i) fun t s' =>
    if s'.faulted then s'.refuse
    else match check with
      | some code => s'.raiseFault code t
      | none => body t s'

/-- R174, R175: what becomes of an illegal command once its payload is taken in. -/
def State.rejectIllegal (s : State) (t : Transaction) : State :=
  if s.faulted then s.refuse else s.raiseFault .illegalCommand t

/-- R77, R174: a transaction that decodes to no command; its payload has the length R78 gives. -/
def runIllegal (s : State) (t : Transaction) : Result :=
  serve s (lIn s.n t.cmd) fun t s' => s'.rejectIllegal t

/-! ### Reset and waiting -/

/-- R200, R201: the Host asserts reset between two transactions. The engine is in its reset state; the transactions not
yet taken and the responses already given are the Host's (log 8). -/
def State.hostReset (s : State) (rest : List HostEvent) : State :=
  { State.resetFor s.n s.d with inbox := rest, outbox := s.outbox }

/-- R203: with nothing submitted the engine waits for the Host's next transaction (log 2). -/
def State.wait (s : State) : State := s

end Sys2Proof.Machine
end

