-- ==== Sys2Proof/Machine/BitVector.lean ====
section
/-! DEFINITION. The bit-vector commands (40_bitvector.md): VZERO, BGET, BSET, VXOR, VCOPY, VLOAD, VSTORE. Each gives its
checks in the order of its rule and then its effect; `transact` is the frame of 60_exceptions.md R174. -/

namespace Sys2Proof.Machine

/-- VZERO (R100): `M[vd] <- 0v`. -/
def execVzero (vd : Byte) (s : State) : Result :=
  transact (.vzero vd) s (checkMember s vd) fun _ s =>
    (s.setMember vd.toNat (zeroVec s.n)).respondOk 0 []

/-- BGET (R102): RVAL is bit `i` of `M[vs]`, zero-extended (R81). -/
def execBget (vs : Byte) (i : Word) (s : State) : Result :=
  transact (.bget vs i) s ((checkMember s vs).or (checkBit s i)) fun _ s =>
    s.respondOk ((readBit (s.member vs.toNat) i).setWidth 32) []

/-- BSET (R104): bit `i` of `M[vd]` becomes `val`. -/
def execBset (vd : Byte) (i : Word) (val : Bool) (s : State) : Result :=
  transact (.bset vd i val) s ((checkMember s vd).or (checkBit s i)) fun _ s =>
    (s.setMember vd.toNat (writeBit (s.member vd.toNat) i val)).respondOk 0 []

/-- VXOR (R106): `M[vd] <- M[va] ^ M[vb]`, both sources read before the write. -/
def execVxor (vd va vb : Byte) (s : State) : Result :=
  transact (.vxor vd va vb) s ((checkMember s vd).or ((checkMember s va).or (checkMember s vb))) fun _ s =>
    (s.setMember vd.toNat (xorVec (s.member va.toNat) (s.member vb.toNat))).respondOk 0 []

/-- VCOPY (R108): `M[vd] <- M[vs]`. -/
def execVcopy (vd vs : Byte) (s : State) : Result :=
  transact (.vcopy vd vs) s ((checkMember s vd).or (checkMember s vs)) fun _ s =>
    (s.setMember vd.toNat (s.member vs.toNat)).respondOk 0 []

/-- VLOAD (R110): `M[vd] <- PayloadIn(0)`. -/
def execVload (vd : Byte) (s : State) : Result :=
  transact (.vload vd) s (checkMember s vd) fun t s =>
    (s.setMember vd.toNat (payloadIn s.n t.payload 0)).respondOk 0 []

/-- VSTORE (R112): `emit(M[vs])`. -/
def execVstore (vs : Byte) (s : State) : Result :=
  transact (.vstore vs) s (checkMember s vs) fun _ s =>
    s.respondOk 0 (s.member vs.toNat)

end Sys2Proof.Machine
end

