-- ==== Sys2Proof/Machine/Control.lean ====
section
/-! DEFINITION. The control command CSRR (42_control.md), the only register-access command (R164) and the one command that
also executes while the engine is faulted (60_exceptions.md R175). -/

namespace Sys2Proof.Machine

/-- CSRR (R160): RVAL is the control register's value, in the running and in the faulted condition alike. A number above
0x06 is an illegal command (R29, R77); decoding never yields one, and the term then does what an illegal command does
(R174, R175; log 9). -/
def execCsrr (csr : Byte) (s : State) : Result :=
  serve s (payloadLength s.n (.csrr csr)) fun t s' =>
    match s'.csrRead csr with
    | some value => s'.respondOk value []
    | none => s'.rejectIllegal t

end Sys2Proof.Machine
end

