-- ==== Sys2Proof/Machine/Stripe.lean ====
section
/-! DEFINITION. The stripe commands (41_stripe.md): SWRITE with the parity encoder, SREAD, and SRESTORE with the XOR-tree
reconstruction unit. Each runs in the frame of 60_exceptions.md R174. -/

namespace Sys2Proof.Machine

/-- SWRITE (R131): the data slots take the payload, and `M[P]` the parity of the NEW data slots (R132). -/
def execSwrite (cnt : Byte) (s : State) : Result :=
  transact (.swrite cnt) s (checkCount s cnt) fun t s =>
    let written := s.writeData t.payload
    (written.setMember s.p written.parity).respondOk 0 []

/-- SREAD (R134): emit the data slots, member 0 first. -/
def execSread (cnt : Byte) (s : State) : Result :=
  transact (.sread cnt) s (checkCount s cnt) fun _ s =>
    s.respondOk 0 s.readData

/-- SRESTORE (R137): the parity index recomputes parity (R132), a data index is reconstructed (R136). -/
def execSrestore (idx : Byte) (s : State) : Result :=
  transact (.srestore idx) s (checkMember s idx) fun _ s =>
    (s.setMember idx.toNat (if idx.toNat = s.p then s.parity else s.recon idx.toNat)).respondOk 0 []

end Sys2Proof.Machine
end

