-- ==== Sys2Proof/Machine/Dispatch.lean ====
section
/-! DEFINITION. One arm per command: the meaning of each constructor of Instr. -/

namespace Sys2Proof.Machine

/-- Execute a command on the transaction the Host submitted (60_exceptions.md R174). -/
def exec (i : Instr) (s : State) : Host.Outcome State Fault Refusal :=
  match i with
  | .vzero vd => Sys2Proof.Machine.execVzero vd s
  | .bget vs bit => Sys2Proof.Machine.execBget vs bit s
  | .bset vd bit val => Sys2Proof.Machine.execBset vd bit val s
  | .vxor vd va vb => Sys2Proof.Machine.execVxor vd va vb s
  | .vcopy vd vs => Sys2Proof.Machine.execVcopy vd vs s
  | .vload vd => Sys2Proof.Machine.execVload vd s
  | .vstore vs => Sys2Proof.Machine.execVstore vs s
  | .swrite cnt => Sys2Proof.Machine.execSwrite cnt s
  | .sread cnt => Sys2Proof.Machine.execSread cnt s
  | .srestore idx => Sys2Proof.Machine.execSrestore idx s
  | .csrr csr => Sys2Proof.Machine.execCsrr csr s

end Sys2Proof.Machine
end

