-- ==== Sys2Proof/Machine/Step.lean ====
section
/-! DEFINITION. One step of the machine: the oldest event of the Host is taken, a transaction is decoded and executed
(60_exceptions.md R174), a reset resets (70_reset_and_hazards.md R200); with no event the engine waits (R203). -/

namespace Sys2Proof.Machine

/-- One step: the next event of the Host, taken in the order submitted (R54). -/
def step (s : State) : Host.Outcome State Fault Refusal :=
  match s.inbox with
  | [] => .next s.wait
  | .reset :: rest => .next (s.hostReset rest)
  | .submit t :: _ =>
    match decode t.cmd t.arg with
    | .command i => exec i s
    | .illegal _ => runIllegal s t

/-- `s` with the transaction whose instruction bits are `w` (CMD in bits 31:0, ARG in bits 63:32, every bit above `nbits` 0)
as the Host's oldest event, its payload the zero bytes that R78 asks for. It stands for the Host's submission (log 3). -/
def State.withFetchWord (s : State) (nbits w : Nat) : State :=
  let bits := w % 2 ^ nbits
  let cmd := BitVec.ofNat 32 bits
  let arg := BitVec.ofNat 32 (bits / 2 ^ 32)
  { s with inbox := .submit { cmd := cmd, arg := arg, payload := zeroVec (lIn s.n cmd) } :: s.inbox }

end Sys2Proof.Machine
end

