-- ==== Sys2Proof/Machine/Transport.lean ====
section
/-! DEFINITION. A transaction on a transport that carries it as a stream of bytes: CMD, ARG, then the payload (30_encoding.md
R83), each word least significant byte first (20_memory.md R53), framed from the command word alone (R78). What wires or
bus carry the bytes is the spec's open parameter TRANSPORT (00_scope.md R4; log 7). -/

namespace Sys2Proof.Machine

/-- A transaction as bytes (R53, R83). -/
def transactionBytes (t : Transaction) : Bytes := wordBytes t.cmd ++ wordBytes t.arg ++ t.payload

/-- A response as bytes: RESP, RVAL, then the output payload (R53, R70). -/
def responseBytes (r : Response) : Bytes := wordBytes r.resp ++ wordBytes r.rval ++ r.payload

/-- The first transaction of a byte stream, and what follows it: the header, then the `L_in(CMD)` bytes that R78 gives from
CMD alone; none while bytes are missing. -/
def parseTransaction (n : Nat) (bytes : Bytes) : Option (Transaction × Bytes) :=
  match splitHeader bytes with
  | some (cmd, arg, rest) =>
    if lIn n cmd ≤ rest.length then
      some ({ cmd := cmd, arg := arg, payload := rest.take (lIn n cmd) }, rest.drop (lIn n cmd))
    else none
  | none => none

/-- At most `fuel` transactions from the front of a byte stream, and the bytes that are left. -/
def parseStream (n : Nat) : Nat → Bytes → List Transaction × Bytes
  | 0, bytes => ([], bytes)
  | fuel + 1, bytes =>
    match parseTransaction n bytes with
    | some (t, rest) => (t :: (parseStream n fuel rest).1, (parseStream n fuel rest).2)
    | none => ([], bytes)

/-- The Host submits a transaction: it waits behind those submitted before (R54, R70). -/
def State.submit (s : State) (t : Transaction) : State := { s with inbox := s.inbox ++ [.submit t] }

/-- The Host asserts reset after what it has submitted (R200, R201). -/
def State.assertReset (s : State) : State := { s with inbox := s.inbox ++ [.reset] }

/-- The Host submits every whole transaction of a byte stream. -/
def State.submitBytes (s : State) (bytes : Bytes) : State :=
  { s with inbox := s.inbox ++ (parseStream s.n bytes.length bytes).1.map .submit }

end Sys2Proof.Machine
end

