-- ==== Sys2Proof/Machine/Assembler.lean ====
section
/-! DEFINITION. The assembler of 30_encoding.md: the line syntax of R85 and the pseudo-instructions of R86. It turns one
line of text into the transaction it stands for. What R85 leaves open of the text (white space, capitals in hexadecimal
numbers, leading zeros) is a DESIGN CHOICE (log 12); the machine itself does not depend on this file. -/

namespace Sys2Proof.Machine

/-! ### Pseudo-instructions (R86) -/

/-- R86: the eight pseudo-instructions. -/
inductive Pseudo where
  | vxora (vd vs : Byte)
  | bclr (vd : Byte) (i : Word)
  | bsetv (vd : Byte) (i : Word)
  | sparity
  | swritek
  | sreadk
  | vlose (vd : Byte)
  | caprd
  deriving DecidableEq, Repr

/-- R86: the one command a pseudo-instruction expands to on a build with `d` members. -/
def expandPseudo (d : Nat) : Pseudo → Instr
  | .vxora vd vs => .vxor vd vd vs
  | .bclr vd i => .bset vd i false
  | .bsetv vd i => .bset vd i true
  | .sparity => .srestore (BitVec.ofNat 8 (d - 1))
  | .swritek => .swrite (BitVec.ofNat 8 (d - 1))
  | .sreadk => .sread (BitVec.ofNat 8 (d - 1))
  | .vlose vd => .vzero vd
  | .caprd => .csrr 0x03

/-! ### Reading the text (R85) -/

/-- The value of a hexadecimal digit. -/
def hexDigit (c : Char) : Option Nat :=
  if '0' ≤ c ∧ c ≤ '9' then some (c.toNat - '0'.toNat)
  else if 'a' ≤ c ∧ c ≤ 'f' then some (c.toNat - 'a'.toNat + 10)
  else if 'A' ≤ c ∧ c ≤ 'F' then some (c.toNat - 'A'.toNat + 10)
  else none

/-- The number that digits of base `base` write after the digits of `acc`. -/
def digitsValue (base : Nat) : List Char → Nat → Option Nat
  | [], acc => some acc
  | c :: cs, acc =>
    match hexDigit c with
    | some v => if v < base then digitsValue base cs (acc * base + v) else none
    | none => none

/-- At least one digit of base `base`. -/
def parseDigits (base : Nat) (cs : List Char) : Option Nat :=
  if cs.isEmpty then none else digitsValue base cs 0

/-- R85: a number is decimal, or hexadecimal with prefix 0x. -/
def parseNumber : List Char → Option Nat
  | '0' :: 'x' :: cs => parseDigits 16 cs
  | cs => parseDigits 10 cs

/-- A number below `2 ^ w`. -/
def parseBits (w : Nat) (cs : List Char) : Option (BitVec w) :=
  match parseNumber cs with
  | some v => if v < 2 ^ w then some (BitVec.ofNat w v) else none
  | none => none

/-- R85: a member register, v<m> with m decimal, or vp for v<D-1>. The assembler refuses m >= 256 and accepts D <= m <= 255. -/
def parseMember (d : Nat) : List Char → Option Byte
  | 'v' :: 'p' :: [] => some (BitVec.ofNat 8 (d - 1))
  | 'v' :: cs =>
    match parseDigits 10 cs with
    | some m => if m < 256 then some (BitVec.ofNat 8 m) else none
    | none => none
  | _ => none

/-- R85: the bit value of BSET, 0 or 1. -/
def parseBitValue (cs : List Char) : Option Bool :=
  match parseNumber cs with
  | some 0 => some false
  | some 1 => some true
  | _ => none

/-- R85: a control register by name or by number. -/
def parseCsr (cs : List Char) : Option Byte :=
  if cs = "ID".toList then some 0x00
  else if cs = "CFG_N".toList then some 0x01
  else if cs = "CFG_D".toList then some 0x02
  else if cs = "CAP".toList then some 0x03
  else if cs = "STATUS".toList then some 0x04
  else if cs = "FCMD".toList then some 0x05
  else if cs = "FARG".toList then some 0x06
  else parseBits 8 cs

/-- White space within a line. -/
def isBlank (c : Char) : Bool := c = ' ' || c = '\t'

/-- The text without the white space around it. -/
def trimBlanks (cs : List Char) : List Char :=
  ((cs.dropWhile isBlank).reverse.dropWhile isBlank).reverse

/-- The parts of a text between the characters that `sep` accepts; an empty text has one part. -/
def splitText (sep : Char → Bool) : List Char → List (List Char)
  | [] => [[]]
  | c :: cs =>
    if sep c then [] :: splitText sep cs
    else match splitText sep cs with
      | part :: parts => (c :: part) :: parts
      | [] => [[c]]

/-- A two-digit hexadecimal byte. -/
def parseHexByte : List Char → Option Byte
  | [h, l] =>
    match hexDigit h, hexDigit l with
    | some x, some y => some (BitVec.ofNat 8 (16 * x + y))
    | _, _ => none
  | _ => none

/-- R85: a payload's text between its braces (character 123 opens it and 125 closes it). -/
def braced (text : String) : List Char := Char.ofNat 123 :: (text.toList ++ [Char.ofNat 125])

/-- R85: a payload, two-digit hexadecimal bytes in order between braces (character 123 opens it and 125 closes it). -/
def parsePayload (cs : List Char) : Option Bytes :=
  match cs with
  | o :: inner =>
    if o = Char.ofNat 123 ∧ inner.getLast? = some (Char.ofNat 125) then
      ((splitText isBlank inner.dropLast).filter (fun w => !w.isEmpty)).mapM parseHexByte
    else none
  | [] => none

/-- The operands of a line: nothing, or the parts between commas. -/
def splitOperands (cs : List Char) : List (List Char) :=
  if (trimBlanks cs).isEmpty then [] else (splitText (fun c => c = ',') cs).map trimBlanks

/-! ### Writing the text (R85) -/

/-- Texts one after another, `sep` between two of them. -/
def joinText (sep : List Char) : List (List Char) → List Char
  | [] => []
  | [x] => x
  | x :: y :: xs => x ++ sep ++ joinText sep (y :: xs)

/-- R85: a line, its mnemonic and then its operands, a comma between two of them. -/
def lineText (mnemonic : String) : List (List Char) → List Char
  | [] => mnemonic.toList
  | op :: ops => mnemonic.toList ++ ' ' :: joinText [',', ' '] (op :: ops)

/-- A text that a line can hold as one operand: no comma, which ends an operand, and no semicolon, which starts a comment. -/
def isOperandText (cs : List Char) : Bool := cs.all fun c => c ≠ ',' && c ≠ ';'

/-- R85: a number in decimal. -/
def decimalText (v : Nat) : List Char := Nat.toDigits 10 v

/-- R85: a byte as two hexadecimal digits. -/
def byteText (b : Byte) : List Char := [Nat.digitChar (b.toNat / 16), Nat.digitChar (b.toNat % 16)]

/-- R85: a payload, its bytes in order between braces (characters 123 and 125). -/
def payloadText (p : Bytes) : List Char :=
  Char.ofNat 123 :: (joinText [' '] (p.map byteText) ++ [Char.ofNat 125])

/-! ### Assembling a line (R85, R86) -/

/-- What a line says: a command and its payload bytes. -/
abbrev AsmCommand := Instr × Bytes

/-- A line's mnemonic and operands as a command and a payload, on a build with `d` members: the syntax table of R85, then
the pseudo-instructions of R86. -/
def readCommand (d : Nat) (mnemonic : List Char) (ops : List (List Char)) : Option AsmCommand :=
  let member := parseMember d
  if mnemonic = "vzero".toList then
    match ops with | [a] => do return (.vzero (← member a), []) | _ => none
  else if mnemonic = "bget".toList then
    match ops with | [a, i] => do return (.bget (← member a) (← parseBits 32 i), []) | _ => none
  else if mnemonic = "bset".toList then
    match ops with
    | [a, i, v] => do return (.bset (← member a) (← parseBits 32 i) (← parseBitValue v), [])
    | _ => none
  else if mnemonic = "vxor".toList then
    match ops with | [a, b, c] => do return (.vxor (← member a) (← member b) (← member c), []) | _ => none
  else if mnemonic = "vcopy".toList then
    match ops with | [a, b] => do return (.vcopy (← member a) (← member b), []) | _ => none
  else if mnemonic = "vload".toList then
    match ops with | [a, p] => do return (.vload (← member a), ← parsePayload p) | _ => none
  else if mnemonic = "vstore".toList then
    match ops with | [a] => do return (.vstore (← member a), []) | _ => none
  else if mnemonic = "swrite".toList then
    match ops with | [c, p] => do return (.swrite (← parseBits 8 c), ← parsePayload p) | _ => none
  else if mnemonic = "sread".toList then
    match ops with | [c] => do return (.sread (← parseBits 8 c), []) | _ => none
  else if mnemonic = "srestore".toList then
    match ops with | [a] => do return (.srestore (← member a), []) | _ => none
  else if mnemonic = "csrr".toList then
    match ops with | [r] => do return (.csrr (← parseCsr r), []) | _ => none
  else if mnemonic = "vxora".toList then
    match ops with | [a, b] => do return (expandPseudo d (.vxora (← member a) (← member b)), []) | _ => none
  else if mnemonic = "bclr".toList then
    match ops with | [a, i] => do return (expandPseudo d (.bclr (← member a) (← parseBits 32 i)), []) | _ => none
  else if mnemonic = "bsetv".toList then
    match ops with | [a, i] => do return (expandPseudo d (.bsetv (← member a) (← parseBits 32 i)), []) | _ => none
  else if mnemonic = "sparity".toList then
    match ops with | [] => some (expandPseudo d .sparity, []) | _ => none
  else if mnemonic = "swritek".toList then
    match ops with | [p] => do return (expandPseudo d .swritek, ← parsePayload p) | _ => none
  else if mnemonic = "sreadk".toList then
    match ops with | [] => some (expandPseudo d .sreadk, []) | _ => none
  else if mnemonic = "vlose".toList then
    match ops with | [a] => do return (expandPseudo d (.vlose (← member a)), []) | _ => none
  else if mnemonic = "caprd".toList then
    match ops with | [] => some (expandPseudo d .caprd, []) | _ => none
  else none

/-- What a line of an assembly program is. -/
inductive AsmLine where
  /-- Nothing but white space and a comment. -/
  | blank
  /-- One command, as the transaction it encodes. -/
  | command (t : Transaction)
  /-- A line that the assembler refuses. -/
  | refused
  deriving DecidableEq, Repr

/-- R78, R85: what a command and its payload assemble to; the payload must hold `L_in(CMD)` bytes. -/
def assembleCommand (n : Nat) : Option AsmCommand → AsmLine
  | some (i, payload) =>
    if payload.length = payloadLength n i then
      .command { cmd := (encode i).1, arg := (encode i).2, payload := payload }
    else .refused
  | none => .refused

/-- R85: assemble one line on a build with parameters `n` and `d`; `;` starts a comment. -/
def assembleLine (n d : Nat) (line : List Char) : AsmLine :=
  let text := trimBlanks (line.takeWhile (fun c => c ≠ ';'))
  if text.isEmpty then .blank
  else
    let mnemonic := text.takeWhile (fun c => !isBlank c)
    let ops := splitOperands (text.dropWhile (fun c => !isBlank c))
    assembleCommand n (readCommand d mnemonic ops)

end Sys2Proof.Machine
end

