-- ==== Sys2Proof/Safety.lean ====
section
/-! DEFINITION. What claims call a legal state, a clean stripe, and a Host that keeps its duties. -/

namespace Sys2Proof.Machine

/-- R21, R23: the register file holds D registers of N bytes each. -/
abbrev WellSized (s : State) : Prop := s.members.length = s.d ∧ ∀ v ∈ s.members, v.length = s.n

/-- R30, R35: the legal values of STATUS: `FAULT = 0, FCODE = 0`, or `FAULT = 1` with FCODE one of 1, 2, 3, 4, and every
other bit 0. -/
abbrev LegalStatus (w : Word) : Prop := w = 0x00 ∨ w = 0x11 ∨ w = 0x21 ∨ w = 0x31 ∨ w = 0x41

/-- R36, R37: FCMD and FARG are 0 while STATUS.FAULT = 0. -/
abbrev LegalRecord (s : State) : Prop := s.faulted = false → s.fcmd = 0 ∧ s.farg = 0

/-- The legal states of the engine: a legal build (R5, R6) with its register file and fault record as the rules say. -/
abbrev Legal (s : State) : Prop :=
  Config.LegalN s.n ∧ Config.LegalD s.d ∧ WellSized s ∧ LegalStatus s.status ∧ LegalRecord s

/-- R15: the stripe is clean, `XOR_{j in 0..D} M[j] = 0v`. The engine never checks it (R141). -/
abbrev Clean (s : State) : Prop := s.xorMembers (List.range s.d) = zeroVec s.n

/-- R209: a transaction carries exactly `L_in(CMD)` input bytes; a reset carries nothing. -/
def framed (n : Nat) : HostEvent → Bool
  | .submit t => decide (t.payload.length = lIn n t.cmd)
  | .reset => true

/-- The Host keeps its framing duty in all it has submitted (R209). -/
abbrev FramedInbox (s : State) : Prop := ∀ e ∈ s.inbox, framed s.n e = true

/-! ### The words claims are stated in -/

/-- R40: the engine is running, STATUS.FAULT = 0. -/
abbrev Running (s : State) : Prop := s.status.getLsbD 0 = false

/-- The Host's oldest event is the transaction `t`, `rest` is what it has submitted after it, and the payload has `len` bytes. -/
abbrev Serves (s : State) (t : Transaction) (rest : List HostEvent) (len : Nat) : Prop :=
  s.inbox = .submit t :: rest ∧ t.payload.length = len

/-- R10, R22: bit `x` of a vector is bit `x & 7` of byte `x >> 3`, least significant first. -/
def bitAt (v : Bytes) (x : Nat) : Bool := (byteAt v (x / 8)).getLsbD (x % 8)

/-- The XOR of a list of bytes (R13). -/
def xorBytes (bs : List Byte) : Byte := bs.foldl (fun x y => x ^^^ y) 0

/-- `s` after a transaction that completed (R174): the register file is `ms`, the response is RESP = 0 with `rval` and
`out`, the transaction is taken, and nothing else is changed: not the build, not STATUS, FCMD or FARG. -/
def completedWith (s : State) (rest : List HostEvent) (ms : List Bytes) (rval : Word) (out : Bytes) : State :=
  { s with members := ms, inbox := rest, outbox := s.outbox ++ [{ resp := 0, rval := rval, payload := out }] }

/-- `s` after a transaction that faulted with code `code` (R172, R173): STATUS, FCMD and FARG record it, the response is
`RESP = (code << 4) | 1` with RVAL = 0 and no payload, the transaction is taken, and nothing else is changed: no member. -/
def faultedWith (s : State) (rest : List HostEvent) (t : Transaction) (code : BitVec 4) : State :=
  { s with
    status := (code.setWidth 32 <<< 4) ||| 1
    fcmd := t.cmd
    farg := t.arg
    inbox := rest
    outbox := s.outbox ++ [{ resp := (code.setWidth 32 <<< 4) ||| 1, rval := 0, payload := [] }] }

/-- `s` after a transaction refused while faulted (R175): the response is `RESP = (FCODE << 4) | 2` with RVAL = 0 and no
payload, the transaction is taken, and nothing else is changed. -/
def refusedAnswer (s : State) (rest : List HostEvent) : State :=
  { s with
    inbox := rest
    outbox := s.outbox ++ [{ resp := ((s.status.extractLsb' 4 4).setWidth 32 <<< 4) ||| 2, rval := 0, payload := [] }] }

/-- R174: the member fields of a command. -/
def memberFields : Instr → List Byte
  | .vzero vd => [vd]
  | .bget vs _ => [vs]
  | .bset vd _ _ => [vd]
  | .vxor vd va vb => [vd, va, vb]
  | .vcopy vd vs => [vd, vs]
  | .vload vd => [vd]
  | .vstore vs => [vs]
  | .swrite _ => []
  | .sread _ => []
  | .srestore idx => [idx]
  | .csrr _ => []

/-- R76: the count field of SWRITE and SREAD. -/
def countField : Instr → Option Byte
  | .swrite cnt => some cnt
  | .sread cnt => some cnt
  | _ => none

/-- R74: the bit index of BGET and BSET. -/
def bitField : Instr → Option Word
  | .bget _ i => some i
  | .bset _ i _ => some i
  | _ => none

/-- R174: the fault code of the first precondition a command violates: a member field `>= D` (2), then a count that is not
`D-1` (3), then a bit index `>= 8*N` (4); none when it violates none. -/
def violation (n d : Nat) (i : Instr) : Option (BitVec 4) :=
  if (memberFields i).any (fun m => decide (d ≤ m.toNat)) then some 2
  else if (countField i).any (fun c => decide (c.toNat ≠ d - 1)) then some 3
  else if (bitField i).any (fun b => decide (8 * n ≤ b.toNat)) then some 4
  else none

/-- R21: the member that a command writes; none where it writes no member. SWRITE writes every member. -/
def writtenMember : Instr → Option Byte
  | .vzero vd => some vd
  | .bset vd _ _ => some vd
  | .vxor vd _ _ => some vd
  | .vcopy vd _ => some vd
  | .vload vd => some vd
  | .srestore idx => some idx
  | _ => none

/-- R21: whether a command may write member `m`. -/
def mayWrite (i : Instr) (m : Nat) : Bool :=
  match i with
  | .swrite _ => true
  | _ => decide ((writtenMember i).map BitVec.toNat = some m)

end Sys2Proof.Machine
end

