-- ==== Sys2Proof/Certificates/Slice0/Obligations.lean ====
section
/-! DEFINITION. The statements for the provers. Each is about every state, operand and payload it names, and about every
legal build; the words they use (Legal, Clean, Serves, completedWith, ...) are those of Sys2Proof/Safety.lean. `completedWith`,
`faultedWith` and `refusedAnswer` give the WHOLE next state, so each equation with one of them is also the frame: every
member, the build, STATUS, FCMD and FARG are as before where it does not say otherwise. The engine has no memory (R50). The lists
`inbox` and `outbox` in them are the model's form of the Host's transactions and the engine's responses (log 2). -/

open Sys2Proof Sys2Proof.Machine

/-! ### The encoding (30_encoding.md) -/

/-- R71, R72, R84: every command, with every operand at every value its field admits, is decoded from its encoding. -/
def Obligations.DecodeEncodeRoundTrip : Prop :=
  ∀ i : Instr, i.wellFormed = true → decode (encode i).1 (encode i).2 = .command i

/-- R82, R84: a pair (CMD, ARG) that decodes to a command is the encoding of that command, and no other command's. -/
def Obligations.EncodeDecodeRoundTrip : Prop :=
  ∀ (cmd arg : Word) (i : Instr),
    decode cmd arg = .command i → encode i = (cmd, arg) ∧ i.wellFormed = true

/-- R77, the four items: the opcode is not in the map; a field its format marks 0 is nonzero; ARG is nonzero for a command
other than BGET and BSET; CSRR with A above 0x06. -/
def Obligations.IllegalExactlyWhenMalformed : Prop :=
  ∀ cmd arg : Word,
    (∃ why, decode cmd arg = .illegal why) ↔
      (fieldOp cmd ∉ ([0x01, 0x02, 0x03, 0x04, 0x05, 0x06, 0x07, 0x10, 0x11, 0x12, 0x20] : List Byte)) ∨
      (fieldOp cmd ∈ ([0x01, 0x02, 0x06, 0x07, 0x10, 0x11, 0x12, 0x20] : List Byte) ∧
        (fieldB cmd ≠ 0 ∨ fieldC cmd ≠ 0)) ∨
      (fieldOp cmd = 0x03 ∧ (2 ≤ (fieldB cmd).toNat ∨ fieldC cmd ≠ 0)) ∨
      (fieldOp cmd = 0x05 ∧ fieldC cmd ≠ 0) ∨
      (fieldOp cmd ≠ 0x02 ∧ fieldOp cmd ≠ 0x03 ∧ arg ≠ 0) ∨
      (fieldOp cmd = 0x20 ∧ 0x06 < (fieldA cmd).toNat)

/-- R87: the command words of the spec's own encoding examples decode to the commands they stand for. -/
def Obligations.SpecWordsDecode : Prop :=
  decode 0x00000001 0 = .command (.vzero 0) ∧
  decode 0x00000102 9 = .command (.bget 1 9) ∧
  decode 0x00010103 9 = .command (.bset 1 9 true) ∧
  decode 0x01000304 0 = .command (.vxor 3 0 1) ∧
  decode 0x00010205 0 = .command (.vcopy 2 1) ∧
  decode 0x00000206 0 = .command (.vload 2) ∧
  decode 0x00000307 0 = .command (.vstore 3) ∧
  decode 0x00000310 0 = .command (.swrite 3) ∧
  decode 0x00000311 0 = .command (.sread 3) ∧
  decode 0x00000012 0 = .command (.srestore 0) ∧
  decode 0x00000420 0 = .command (.csrr 4)

/-- R53, R83: a header carried as bytes, CMD then ARG, each least significant byte first, decodes as its words do, whatever
payload follows. -/
def Obligations.HeaderBytesDecode : Prop :=
  ∀ (cmd arg : Word) (payload : Bytes),
    decodeBytes
      ([cmd.extractLsb' 0 8, cmd.extractLsb' 8 8, cmd.extractLsb' 16 8, cmd.extractLsb' 24 8,
        arg.extractLsb' 0 8, arg.extractLsb' 8 8, arg.extractLsb' 16 8, arg.extractLsb' 24 8] ++ payload) =
      decode cmd arg

/-- R78, R83: "A transport can therefore frame every transaction from its command word alone": a byte stream of framed
transactions, legal or not, is cut into exactly those transactions. -/
def Obligations.ByteStreamFramesTransactions : Prop :=
  ∀ (n : Nat) (ts : List Transaction),
    (∀ t ∈ ts, t.payload.length = lIn n t.cmd) →
    parseStream n ts.length (ts.flatMap transactionBytes) = (ts, [])

/-- R87: the spec's table of encoding examples at D = 4 and N = 4, each line assembled (R85) to its CMD, its ARG and its payload. -/
def Obligations.AssemblerGivesSpecWords : Prop :=
  ∀ row ∈ ([("vzero v0".toList, ⟨0x00000001, 0, []⟩), ("bget v1, 9".toList, ⟨0x00000102, 9, []⟩),
      ("bset v1, 9, 1".toList, ⟨0x00010103, 9, []⟩), ("vxor v3, v0, v1".toList, ⟨0x01000304, 0, []⟩),
      ("vcopy v2, v1".toList, ⟨0x00010205, 0, []⟩),
      ("vload v2, ".toList ++ braced "de ad be ef", ⟨0x00000206, 0, [0xde, 0xad, 0xbe, 0xef]⟩),
      ("vstore v3".toList, ⟨0x00000307, 0, []⟩),
      ("swrite 3, ".toList ++ braced "01 02 03 04 05 06 07 08 09 0a 0b 0c",
        ⟨0x00000310, 0, [1, 2, 3, 4, 5, 6, 7, 8, 9, 10, 11, 12]⟩),
      ("sread 3".toList, ⟨0x00000311, 0, []⟩), ("srestore v0".toList, ⟨0x00000012, 0, []⟩),
      ("sparity".toList, ⟨0x00000312, 0, []⟩), ("csrr STATUS".toList, ⟨0x00000420, 0, []⟩)] :
        List (List Char × Transaction)),
    assembleLine 4 4 row.1 = .command row.2

/-- R86: on every legal build, whatever text stands for its operands, a line of each of the eight pseudo-instructions assembles
to what the line of its expansion assembles to. K = D-1 is written in decimal. An operand text holds no comma and no semicolon,
as no operand of R85 does; a text that is no operand is refused on both sides. The white space is log 12's choice. -/
def Obligations.PseudoLinesExpand : Prop :=
  ∀ (n d : Nat) (a b : List Char), Config.LegalD d → isOperandText a = true → isOperandText b = true →
    assembleLine n d (lineText "vxora" [a, b]) = assembleLine n d (lineText "vxor" [a, a, b]) ∧
    assembleLine n d (lineText "bclr" [a, b]) = assembleLine n d (lineText "bset" [a, b, ['0']]) ∧
    assembleLine n d (lineText "bsetv" [a, b]) = assembleLine n d (lineText "bset" [a, b, ['1']]) ∧
    assembleLine n d (lineText "sparity" []) = assembleLine n d (lineText "srestore" [['v', 'p']]) ∧
    assembleLine n d (lineText "swritek" [a]) = assembleLine n d (lineText "swrite" [decimalText (d - 1), a]) ∧
    assembleLine n d (lineText "sreadk" []) = assembleLine n d (lineText "sread" [decimalText (d - 1)]) ∧
    assembleLine n d (lineText "vlose" [a]) = assembleLine n d (lineText "vzero" [a]) ∧
    assembleLine n d (lineText "caprd" []) = assembleLine n d (lineText "csrr" ["CAP".toList])

/-- R86, R85, R71, R78: on every legal build the three pseudo-instructions that depend on D assemble to the command words with
`A = D-1`, `sparity` to SRESTORE, `swritek` to SWRITE and `sreadk` to SREAD, with ARG 0; `swritek` carries exactly the
payload that it is written with, and is refused unless that holds `K*N` bytes. -/
def Obligations.StripePseudoLinesEncode : Prop :=
  ∀ n d : Nat, Config.LegalD d →
    assembleLine n d (lineText "sparity" []) = .command ⟨BitVec.ofNat 32 (0x12 + 256 * (d - 1)), 0, []⟩ ∧
    assembleLine n d (lineText "sreadk" []) = .command ⟨BitVec.ofNat 32 (0x11 + 256 * (d - 1)), 0, []⟩ ∧
    ∀ p : Bytes, assembleLine n d (lineText "swritek" [payloadText p]) =
      if p.length = (d - 1) * n then .command ⟨BitVec.ofNat 32 (0x10 + 256 * (d - 1)), 0, p⟩ else .refused

/-! ### The step and the execution frame (60_exceptions.md) -/

/-- R174: when the Host's oldest transaction decodes to a command, the step is that command's execution. -/
def Obligations.StepRunsDecodedCommand : Prop :=
  ∀ (s : State) (t : Transaction) (rest : List HostEvent) (i : Instr),
    s.inbox = .submit t :: rest → decode t.cmd t.arg = .command i → step s = exec i s

/-- R174, R173, R175: the frame of every transaction. While faulted, a legal CSRR executes and everything else is refused;
while running, an illegal encoding faults with code 1, a command that violates preconditions faults with the code of the first
in the order 2, 3, 4, and a command that violates none completes. -/
def Obligations.TransactionFrame : Prop :=
  ∀ (s : State) (t : Transaction) (rest : List HostEvent),
    Serves s t rest (lIn s.n t.cmd) →
    (¬ Running s →
      (∀ csr, decode t.cmd t.arg = .command (.csrr csr) →
        ∃ value, s.csrRead csr = some value ∧ step s = .next (completedWith s rest s.members value [])) ∧
      ((∀ csr, decode t.cmd t.arg ≠ .command (.csrr csr)) → step s = .next (refusedAnswer s rest))) ∧
    (Running s →
      (∀ why, decode t.cmd t.arg = .illegal why → step s = .next (faultedWith s rest t 1)) ∧
      (∀ i, decode t.cmd t.arg = .command i →
        (∀ code, violation s.n s.d i = some code → step s = .next (faultedWith s rest t code)) ∧
        (violation s.n s.d i = none →
          ∃ ms rval out, step s = .next (completedWith s rest ms rval out))))

/-- R19, R78: a transaction whose payload has another length than `L_in(CMD)` is refused, whatever it says (by
the name misframedPayload, which is log 4's). -/
def Obligations.MisframedTransactionRefused : Prop :=
  ∀ (s : State) (t : Transaction) (rest : List HostEvent),
    s.inbox = .submit t :: rest → t.payload.length ≠ lIn s.n t.cmd → step s = .refused .misframedPayload

/-- R203 and log 2 (the model's choice): with nothing submitted the engine waits, and nothing changes. -/
def Obligations.EmptyInboxWaits : Prop :=
  ∀ s : State, s.inbox = [] → step s = .next s

/-- R54: a step takes exactly the Host's oldest transaction, gives it exactly one response, behind those given before, and
leaves the build and what the Host submitted later alone. -/
def Obligations.OneResponsePerTransaction : Prop :=
  ∀ (s s' : State) (t : Transaction) (rest : List HostEvent),
    s.inbox = .submit t :: rest → step s = .next s' →
    s'.inbox = rest ∧ s'.n = s.n ∧ s'.d = s.d ∧ ∃ r, s'.outbox = s.outbox ++ [r]

/-- R19, R210: every submitted transaction gets its response after finitely many steps: one step an event empties any framed
inbox, and gives as many responses as there were transactions. That one step serves one event is the model's choice (logs 2, 11). -/
def Obligations.EveryTransactionIsAnswered : Prop :=
  ∀ s : State, FramedInbox s →
    ∃ s', Host.Core.run core s.inbox.length s = .next s' ∧ s'.inbox = [] ∧
      s'.outbox.length = s.outbox.length + (s.inbox.filter (fun e => decide (e ≠ .reset))).length ∧
      s.outbox <+: s'.outbox

/-! ### Reset and invariants (10_state.md, 70_reset_and_hazards.md) -/

/-- R41: the reset state of every build. -/
def Obligations.ResetValues : Prop :=
  ∀ n d : Nat,
    (State.resetFor n d).members.length = d ∧
    (∀ m < d, (State.resetFor n d).member m = List.replicate n 0) ∧
    [0x00, 0x01, 0x02, 0x03, 0x04, 0x05, 0x06].map (State.resetFor n d).csrRead =
      [some 1, some (BitVec.ofNat 32 n), some (BitVec.ofNat 32 d), some 1, some 0, some 0, some 0] ∧
    Clean (State.resetFor n d)

/-- R41, R200: the reset state of every legal build is legal, and State.reset is one of them (its build is log 1's choice). -/
def Obligations.ResetIsLegal : Prop :=
  Legal State.reset ∧
  ∀ n d, Config.LegalN n → Config.LegalD d → Legal (State.resetFor n d) ∧ Running (State.resetFor n d)

/-- R20 to R23, R30, R35 to R37: every step keeps the state legal: D members of N bytes each, STATUS one of its legal
values with every reserved bit 0, FCMD and FARG 0 while running, and the build in its range. -/
def Obligations.StepKeepsLegal : Prop :=
  ∀ s s' : State, Legal s → step s = .next s' → Legal s'

/-- R200: reset gives every piece of state its reset value and a clean stripe, and nothing but reset ends the faulted
condition. That a reset keeps the Host's later events and the responses given is the model's choice (log 8). -/
def Obligations.ResetAloneEndsFault : Prop :=
  (∀ (s : State) (rest : List HostEvent), s.inbox = .reset :: rest →
    step s = .next
      { State.resetFor s.n s.d with inbox := rest, outbox := s.outbox } ∧
    Clean (State.resetFor s.n s.d) ∧ Running (State.resetFor s.n s.d)) ∧
  (∀ s s' : State, ¬ Running s → step s = .next s' → Running s' → ∃ rest, s.inbox = .reset :: rest)

/-- R175, R179: while faulted nothing but reset changes a member or what the first fault recorded. -/
def Obligations.FirstFaultSurvivesUntilReset : Prop :=
  ∀ s s' : State, ¬ Running s → (∀ rest, s.inbox ≠ .reset :: rest) → step s = .next s' →
    s'.members = s.members ∧ s'.status = s.status ∧ s'.fcmd = s.fcmd ∧ s'.farg = s.farg

/-- R35, R36, R37, R172: without a reset, STATUS, FCMD and FARG change only when a running engine faults; the fault then
leaves every member alone and records the transaction's words and a code from 1 to 4. -/
def Obligations.FaultRecordChangesOnlyAtFirstFault : Prop :=
  ∀ s s' : State, (∀ rest, s.inbox ≠ .reset :: rest) → step s = .next s' →
    (s'.status = s.status ∧ s'.fcmd = s.fcmd ∧ s'.farg = s.farg) ∨
    (Running s ∧ s'.members = s.members ∧
      ∃ t rest code, s.inbox = .submit t :: rest ∧ 1 ≤ code ∧ code ≤ 4 ∧
        s'.status = BitVec.ofNat 32 (16 * code + 1) ∧ s'.fcmd = t.cmd ∧ s'.farg = t.arg)

/-- R8, R31 to R34: no step, a reset included, changes what ID, CFG_N, CFG_D and CAP read as. -/
def Obligations.ConstantRegistersNeverChange : Prop :=
  ∀ (s s' : State) (csr : Byte), csr.toNat ≤ 3 → step s = .next s' →
    s'.csrRead csr = s.csrRead csr ∧
    s'.csrRead csr = [some 1, some (BitVec.ofNat 32 s.n), some (BitVec.ofNat 32 s.d), some 1].getD csr.toNat none

/-- R21, R25: a command changes no member but the one its table row says it writes, and never the number of members. -/
def Obligations.ExecWritesOnlyItsMember : Prop :=
  ∀ (i : Instr) (s s' : State), exec i s = .next s' →
    s'.members.length = s.members.length ∧
    ∀ m, mayWrite i m = false → s'.member m = s.member m

/-! ### Responses (30_encoding.md R79, R80, R81) -/

/-- R80: the response word: OUTCOME is 0, 1 or 2; CODE is 0 for OK, the recorded code for FAULT (the engine was running) and
STATUS.FCODE for REFUSED (it was faulted); every other bit is 0. -/
def Obligations.ResponseWordFields : Prop :=
  ∀ (s s' : State) (t : Transaction) (rest : List HostEvent) (r : Response),
    s.inbox = .submit t :: rest → step s = .next s' → s'.outbox = s.outbox ++ [r] →
    r.resp.extractLsb' 2 2 = 0 ∧ r.resp.extractLsb' 8 24 = 0 ∧
    ((r.resp.extractLsb' 0 2 = 0 ∧ r.resp.extractLsb' 4 4 = 0) ∨
     (r.resp.extractLsb' 0 2 = 1 ∧ Running s ∧ ¬ Running s' ∧ r.resp.extractLsb' 4 4 = s'.status.extractLsb' 4 4) ∨
     (r.resp.extractLsb' 0 2 = 2 ∧ ¬ Running s ∧ r.resp.extractLsb' 4 4 = s.status.extractLsb' 4 4))

/-- R79: the output payload is N bytes for a VSTORE that succeeded, K*N for a SREAD that succeeded (and then A = K), and
empty otherwise. -/
def Obligations.OutputPayloadLength : Prop :=
  ∀ (s s' : State) (t : Transaction) (rest : List HostEvent) (r : Response),
    Legal s → s.inbox = .submit t :: rest → step s = .next s' → s'.outbox = s.outbox ++ [r] →
    (r.resp = 0 → ∀ vs, decode t.cmd t.arg = .command (.vstore vs) → r.payload.length = s.n) ∧
    (r.resp = 0 → ∀ cnt, decode t.cmd t.arg = .command (.sread cnt) →
      r.payload.length = (s.d - 1) * s.n ∧ cnt.toNat = s.d - 1) ∧
    ((r.resp ≠ 0 ∨ ((∀ vs, decode t.cmd t.arg ≠ .command (.vstore vs)) ∧
        ∀ cnt, decode t.cmd t.arg ≠ .command (.sread cnt))) → r.payload = [])

/-- R81: RVAL is the bit for a BGET that succeeded, the register's value for a CSRR that succeeded, and 0 otherwise. -/
def Obligations.ResponseValueWord : Prop :=
  ∀ (s s' : State) (t : Transaction) (rest : List HostEvent) (r : Response),
    s.inbox = .submit t :: rest → step s = .next s' → s'.outbox = s.outbox ++ [r] →
    (r.resp = 0 → ∀ vs i, decode t.cmd t.arg = .command (.bget vs i) →
      r.rval = if bitAt (s.member vs.toNat) i.toNat then 1 else 0) ∧
    (r.resp = 0 → ∀ csr, decode t.cmd t.arg = .command (.csrr csr) → s.csrRead csr = some r.rval) ∧
    ((r.resp ≠ 0 ∨ ((∀ vs i, decode t.cmd t.arg ≠ .command (.bget vs i)) ∧
        ∀ csr, decode t.cmd t.arg ≠ .command (.csrr csr))) → r.rval = 0)

/-! ### What each command does when it completes -/

/-- R100, R101: VZERO completes for every member that exists, and that member becomes N zero bytes. -/
def Obligations.VzeroResult : Prop :=
  ∀ (s : State) (t : Transaction) (rest : List HostEvent) (vd : Byte),
    Serves s t rest 0 → Running s → vd.toNat < s.d →
    exec (.vzero vd) s = .next (completedWith s rest (s.members.set vd.toNat (List.replicate s.n 0)) 0 [])

/-- R102, R22: BGET completes for every member and bit that exist; RVAL is the bit, and no member changes. -/
def Obligations.BgetResult : Prop :=
  ∀ (s : State) (t : Transaction) (rest : List HostEvent) (vs : Byte) (i : Word),
    Serves s t rest 0 → Running s → vs.toNat < s.d → i.toNat < 8 * s.n →
    exec (.bget vs i) s =
      .next (completedWith s rest s.members (if bitAt (s.member vs.toNat) i.toNat then 1 else 0) [])

/-- R104: BSET completes for every member and bit that exist, and writes that bit alone of that member alone. -/
def Obligations.BsetResult : Prop :=
  ∀ (s : State) (t : Transaction) (rest : List HostEvent) (vd : Byte) (i : Word) (val : Bool),
    Legal s → Serves s t rest 0 → Running s → vd.toNat < s.d → i.toNat < 8 * s.n →
    ∃ v : Bytes, v.length = s.n ∧
      (∀ x < 8 * s.n, bitAt v x = if x = i.toNat then val else bitAt (s.member vd.toNat) x) ∧
      exec (.bset vd i val) s = .next (completedWith s rest (s.members.set vd.toNat v) 0 [])

/-- R106: VXOR completes for members that exist; byte by byte, `M[vd]` becomes the XOR of what the sources held before, whether
or not `vd` is one of them. -/
def Obligations.VxorResult : Prop :=
  ∀ (s : State) (t : Transaction) (rest : List HostEvent) (vd va vb : Byte),
    Legal s → Serves s t rest 0 → Running s → vd.toNat < s.d → va.toNat < s.d → vb.toNat < s.d →
    ∃ v : Bytes, v.length = s.n ∧
      (∀ j < s.n, byteAt v j = byteAt (s.member va.toNat) j ^^^ byteAt (s.member vb.toNat) j) ∧
      exec (.vxor vd va vb) s = .next (completedWith s rest (s.members.set vd.toNat v) 0 [])

/-- R106, corner cases: with both sources the same member, VXOR writes `0v`, whatever `vd` is. -/
def Obligations.VxorSameSourcesZeroes : Prop :=
  ∀ (s : State) (t : Transaction) (rest : List HostEvent) (vd va : Byte),
    Legal s → Serves s t rest 0 → Running s → vd.toNat < s.d → va.toNat < s.d →
    exec (.vxor vd va va) s = .next (completedWith s rest (s.members.set vd.toNat (List.replicate s.n 0)) 0 [])

/-- R108: VCOPY completes for members that exist, and `M[vd]` becomes what `M[vs]` held. -/
def Obligations.VcopyResult : Prop :=
  ∀ (s : State) (t : Transaction) (rest : List HostEvent) (vd vs : Byte),
    Serves s t rest 0 → Running s → vd.toNat < s.d → vs.toNat < s.d →
    exec (.vcopy vd vs) s = .next (completedWith s rest (s.members.set vd.toNat (s.member vs.toNat)) 0 [])

/-- R110: VLOAD completes for every member that exists, and the member becomes the N payload bytes. -/
def Obligations.VloadResult : Prop :=
  ∀ (s : State) (t : Transaction) (rest : List HostEvent) (vd : Byte),
    Serves s t rest s.n → Running s → vd.toNat < s.d →
    exec (.vload vd) s = .next (completedWith s rest (s.members.set vd.toNat t.payload) 0 [])

/-- R112: VSTORE completes for every member that exists; its bytes are the output payload, and no member changes. -/
def Obligations.VstoreResult : Prop :=
  ∀ (s : State) (t : Transaction) (rest : List HostEvent) (vs : Byte),
    Serves s t rest 0 → Running s → vs.toNat < s.d →
    exec (.vstore vs) s = .next (completedWith s rest s.members 0 (s.member vs.toNat))

/-- R131, R132: SWRITE completes when its count is K. Data slot `k` becomes bytes `k*N .. (k+1)*N` of the payload, and each byte
of the parity slot the XOR of that byte of every chunk. -/
def Obligations.SwriteResult : Prop :=
  ∀ (s : State) (t : Transaction) (rest : List HostEvent) (cnt : Byte),
    Legal s → Serves s t rest (cnt.toNat * s.n) → Running s → cnt.toNat = s.d - 1 →
    ∃ ms : List Bytes, exec (.swrite cnt) s = .next (completedWith s rest ms 0 []) ∧
      ms.length = s.d ∧ (∀ v ∈ ms, v.length = s.n) ∧
      (∀ k < cnt.toNat, ∀ j < s.n, byteAt (ms.getD k []) j = byteAt t.payload (k * s.n + j)) ∧
      (∀ j < s.n, byteAt (ms.getD (s.d - 1) []) j =
        xorBytes ((List.range cnt.toNat).map fun k => byteAt t.payload (k * s.n + j)))

/-- R134: SREAD completes when its count is K, clean stripe or not. Its output is the data slots in member order, the parity
slot left out, and no member changes. -/
def Obligations.SreadResult : Prop :=
  ∀ (s : State) (t : Transaction) (rest : List HostEvent) (cnt : Byte),
    Legal s → Serves s t rest 0 → Running s → cnt.toNat = s.d - 1 →
    exec (.sread cnt) s = .next (completedWith s rest s.members 0 (s.members.take (s.d - 1)).flatten)

/-- R137, R138: SRESTORE completes for every member that exists, and writes it the XOR of every other member: Parity(M) for the
parity index and Recon(M, idx) for a data index. -/
def Obligations.SrestoreXorsTheOthers : Prop :=
  ∀ (s : State) (t : Transaction) (rest : List HostEvent) (idx : Byte),
    Legal s → Serves s t rest 0 → Running s → idx.toNat < s.d →
    ∃ v : Bytes, v.length = s.n ∧
      (∀ j < s.n, byteAt v j =
        xorBytes (((List.range s.d).filter (fun m => m ≠ idx.toNat)).map fun m => byteAt (s.member m) j)) ∧
      (idx.toNat = s.d - 1 → v = s.parity) ∧ (idx.toNat < s.d - 1 → v = s.recon idx.toNat) ∧
      exec (.srestore idx) s = .next (completedWith s rest (s.members.set idx.toNat v) 0 [])

/-- R160, R175, R31 to R37: CSRR of a defined register completes, running or faulted, and RVAL is the register's value. -/
def Obligations.CsrrResult : Prop :=
  ∀ (s : State) (t : Transaction) (rest : List HostEvent) (csr : Byte),
    Serves s t rest 0 → csr.toNat ≤ 6 →
    exec (.csrr csr) s = .next (completedWith s rest s.members
      ([1, BitVec.ofNat 32 s.n, BitVec.ofNat 32 s.d, 1, s.status, s.fcmd, s.farg].getD csr.toNat 0) [])

/-- R29, R160 and log 9 (the model's choice for a term no encoding gives): CSRR of a reserved number does what an illegal
command does. -/
def Obligations.CsrrReservedNumber : Prop :=
  ∀ (s : State) (t : Transaction) (rest : List HostEvent) (csr : Byte),
    Serves s t rest 0 → 6 < csr.toNat →
    exec (.csrr csr) s = .next (if s.status.getLsbD 0 then refusedAnswer s rest else faultedWith s rest t 1)

/-! ### Laws of the bit-vector commands (40_bitvector.md) -/

/-- R105: the bit round-trip law, with everything it leaves alone. -/
def Obligations.BitRoundTrip : Prop :=
  ∀ (s : State) (t u : Transaction) (rest : List HostEvent) (vd : Byte) (i : Word) (val : Bool),
    Legal s → s.inbox = .submit t :: .submit u :: rest → t.payload = [] → u.payload = [] →
    Running s → vd.toNat < s.d → i.toNat < 8 * s.n →
    ∃ s₁ s₂, exec (.bset vd i val) s = .next s₁ ∧ exec (.bget vd i) s₁ = .next s₂ ∧
      s₂.outbox = s.outbox ++ [⟨0, 0, []⟩, ⟨0, if val then 1 else 0, []⟩] ∧
      bitAt (s₁.member vd.toNat) i.toNat = val ∧
      (∀ x < 8 * s.n, x ≠ i.toNat → bitAt (s₁.member vd.toNat) x = bitAt (s.member vd.toNat) x) ∧
      (∀ m, m ≠ vd.toNat → s₁.member m = s.member m) ∧ s₂.members = s₁.members

/-- R107: XOR of vectors of one size is associative and commutative, `x ^ x = 0v` and `x ^ 0v = x`. -/
def Obligations.XorAlgebra : Prop :=
  ∀ (n : Nat) (x y z : Bytes), x.length = n → y.length = n → z.length = n →
    xorVec (xorVec x y) z = xorVec x (xorVec y z) ∧ xorVec x y = xorVec y x ∧
    xorVec x x = zeroVec n ∧ xorVec x (zeroVec n) = x

/-- R113: VSTORE right after a VLOAD returns the bytes loaded; VSTORE right after a BSET returns bytes in which bit `i & 7` of byte
`i >> 3` is the value set. -/
def Obligations.RawViewRoundTrip : Prop :=
  ∀ (s : State) (t u : Transaction) (rest : List HostEvent) (vd : Byte),
    Legal s → s.inbox = .submit t :: .submit u :: rest → u.payload = [] → Running s → vd.toNat < s.d →
    (t.payload.length = s.n →
      ∃ s₁ s₂, exec (.vload vd) s = .next s₁ ∧ exec (.vstore vd) s₁ = .next s₂ ∧
        s₂.outbox = s.outbox ++ [⟨0, 0, []⟩, ⟨0, 0, t.payload⟩]) ∧
    (t.payload = [] → ∀ (i : Word) (val : Bool), i.toNat < 8 * s.n →
      ∃ s₁ s₂ out, exec (.bset vd i val) s = .next s₁ ∧ exec (.vstore vd) s₁ = .next s₂ ∧
        s₂.outbox = s.outbox ++ [⟨0, 0, []⟩, ⟨0, 0, out⟩] ∧
        (byteAt out (i.toNat / 8)).getLsbD (i.toNat % 8) = val)

/-! ### Laws of the stripe (41_stripe.md) -/

/-- R132: Parity(M) is the XOR of the data members, byte by byte, and reads no state but the data slots: two states of one
build with the same data slots have the same parity, whatever `M[P]` and everything else hold. -/
def Obligations.ParityReadsOnlyData : Prop :=
  ∀ s : State, Legal s →
    s.parity.length = s.n ∧
    (∀ j < s.n, byteAt s.parity j = xorBytes ((List.range (s.d - 1)).map fun k => byteAt (s.member k) j)) ∧
    ∀ u : State, u.n = s.n → u.d = s.d → (∀ k < s.d - 1, u.member k = s.member k) → u.parity = s.parity

/-- R133: after a SWRITE that succeeds the member set is clean, whatever the input values and whatever it held before. -/
def Obligations.SwriteLeavesClean : Prop :=
  ∀ (s : State) (t : Transaction) (rest : List HostEvent) (cnt : Byte),
    Legal s → Serves s t rest (cnt.toNat * s.n) → Running s → cnt.toNat = s.d - 1 →
    ∃ s', exec (.swrite cnt) s = .next s' ∧ Clean s'

/-- R131, corner cases: the previous contents of every member are overwritten and never read: two engines of one build
that differ only in their members hold the same members after the same SWRITE. -/
def Obligations.SwriteNeverReadsOldMembers : Prop :=
  ∀ (s : State) (t : Transaction) (rest : List HostEvent) (cnt : Byte) (old : List Bytes),
    Legal s → Legal { s with members := old } →
    Serves s t rest (cnt.toNat * s.n) → Running s → cnt.toNat = s.d - 1 →
    ∃ s', exec (.swrite cnt) s = .next s' ∧ exec (.swrite cnt) { s with members := old } = .next s'

/-- R136, R137: SRESTORE never reads the member it restores, whatever that holds. -/
def Obligations.SrestoreNeverReadsItsTarget : Prop :=
  ∀ (s : State) (t : Transaction) (rest : List HostEvent) (idx : Byte) (v : Bytes),
    Legal s → Serves s t rest 0 → Running s → idx.toNat < s.d →
    ∃ s', exec (.srestore idx) s = .next s' ∧ exec (.srestore idx) (s.setMember idx.toNat v) = .next s'

/-- R139: the single-fault reconstruction law: where the stripe was clean but for member `idx`, SRESTORE gives back exactly the
clean members. -/
def Obligations.SingleLossIsRestored : Prop :=
  ∀ (s : State) (t : Transaction) (rest : List HostEvent) (idx : Byte) (v : Bytes),
    Legal s → Clean s → v.length = s.n → Serves s t rest 0 → Running s → idx.toNat < s.d →
    exec (.srestore idx) (s.setMember idx.toNat v) = .next (completedWith s rest s.members 0 [])

/-- R140: for any member set, SRESTORE P sets `M[P]` to the XOR of the current data members, and the result is clean. -/
def Obligations.ParityIsRestored : Prop :=
  ∀ (s : State) (t : Transaction) (rest : List HostEvent) (idx : Byte),
    Legal s → Serves s t rest 0 → Running s → idx.toNat = s.d - 1 →
    ∃ s', exec (.srestore idx) s = .next s' ∧ Clean s' ∧
      (∀ j < s.n, byteAt (s'.member (s.d - 1)) j =
        xorBytes ((List.range (s.d - 1)).map fun k => byteAt (s.member k) j)) ∧
      ∀ m < s.d - 1, s'.member m = s.member m

/-- R143: with D = 2, Parity(M) is `M[0]`, Recon(M, 0) is `M[1]`, and SWRITE writes its one chunk to both members. -/
def Obligations.TwoMemberStripeMirrors : Prop :=
  ∀ s : State, Legal s → s.d = 2 →
    s.parity = s.member 0 ∧ s.recon 0 = s.member 1 ∧
    ∀ (t : Transaction) (rest : List HostEvent), Serves s t rest s.n → Running s →
      exec (.swrite 1) s = .next (completedWith s rest [t.payload, t.payload] 0 [])

/-- R131, R134: a SREAD right after a SWRITE returns the payload written. -/
def Obligations.SwriteThenSread : Prop :=
  ∀ (s : State) (t u : Transaction) (rest : List HostEvent) (cnt : Byte),
    Legal s → s.inbox = .submit t :: .submit u :: rest → t.payload.length = cnt.toNat * s.n → u.payload = [] →
    Running s → cnt.toNat = s.d - 1 →
    ∃ s₁ s₂, exec (.swrite cnt) s = .next s₁ ∧ exec (.sread cnt) s₁ = .next s₂ ∧
      s₂.outbox = s.outbox ++ [⟨0, 0, []⟩, ⟨0, 0, t.payload⟩]

/-- R131, R110, R137, R134, R139: write a stripe, lose any one member to arbitrary bytes, restore it, read the stripe: four
transactions, as words of the encoding, give the data back and leave a clean stripe, on every legal build. -/
def Obligations.WriteLoseRestoreRead : Prop :=
  ∀ (s : State) (data garbage : Bytes) (idx cnt : Byte) (rest : List HostEvent),
    Legal s → Running s → idx.toNat < s.d → cnt.toNat = s.d - 1 →
    data.length = cnt.toNat * s.n → garbage.length = s.n →
    s.inbox =
      .submit ⟨(encode (.swrite cnt)).1, 0, data⟩ :: .submit ⟨(encode (.vload idx)).1, 0, garbage⟩ ::
      .submit ⟨(encode (.srestore idx)).1, 0, []⟩ :: .submit ⟨(encode (.sread cnt)).1, 0, []⟩ :: rest →
    ∃ s', Host.Core.run core 4 s = .next s' ∧ Clean s' ∧ s'.inbox = rest ∧
      s'.outbox = s.outbox ++ [⟨0, 0, []⟩, ⟨0, 0, []⟩, ⟨0, 0, []⟩, ⟨0, 0, data⟩]

/-! ### Side effects and repetition (20_memory.md) -/

/-- R57: BGET, VSTORE, SREAD and CSRR change no state when they succeed, and the same one again gives the same response. -/
def Obligations.ReadsHaveNoSideEffect : Prop :=
  ∀ (i : Instr) (s s₁ : State) (t u : Transaction) (rest : List HostEvent) (r : Response),
    ((∃ vs x, i = .bget vs x) ∨ (∃ vs, i = .vstore vs) ∨ (∃ cnt, i = .sread cnt) ∨ ∃ csr, i = .csrr csr) →
    s.inbox = .submit t :: .submit u :: rest → u.payload = [] →
    exec i s = .next s₁ → s₁.outbox = s.outbox ++ [r] → r.resp = 0 →
    s₁.members = s.members ∧ s₁.status = s.status ∧ s₁.fcmd = s.fcmd ∧ s₁.farg = s.farg ∧
    exec i s₁ = .next (completedWith s₁ rest s₁.members r.rval r.payload)

/-- R58: when it succeeds, each of VZERO, BSET, VCOPY, VLOAD, SWRITE and SRESTORE leaves the same state whether the same
transaction runs once or twice in a row, and so does a VXOR whose `vd` is neither `va` nor `vb`. -/
def Obligations.WritesAreIdempotent : Prop :=
  ∀ (i : Instr) (s s₁ : State) (t : Transaction) (rest : List HostEvent),
    ((∃ vd, i = .vzero vd) ∨ (∃ vd x val, i = .bset vd x val) ∨ (∃ vd vs, i = .vcopy vd vs) ∨ (∃ vd, i = .vload vd) ∨
      (∃ cnt, i = .swrite cnt) ∨ (∃ idx, i = .srestore idx) ∨
      ∃ vd va vb, i = .vxor vd va vb ∧ vd ≠ va ∧ vd ≠ vb) →
    Legal s → s.inbox = .submit t :: .submit t :: rest → Running s → exec i s = .next s₁ → Running s₁ →
    exec i s₁ = .next (completedWith s₁ rest s₁.members 0 [])
end

