-- ==== Sys2Proof/Laws/Assembler.lean ====
section
/-! SUPPORT. The text of the assembler (30_encoding.md R85): what the reader of a line finds in a line that `lineText` wrote. -/

namespace Sys2Proof.Machine

/-! ### White space -/

theorem trimBlanks_eq (cs : List Char) : trimBlanks cs = (cs.dropWhile isBlank).rdropWhile isBlank := rfl

theorem trimBlanks_blank_cons {b : Char} (hb : isBlank b = true) (cs : List Char) :
    trimBlanks (b :: cs) = trimBlanks cs := by
  simp [trimBlanks, hb]

theorem trimBlanks_concat_blank {b : Char} (hb : isBlank b = true) (cs : List Char) :
    trimBlanks (cs ++ [b]) = trimBlanks cs := by
  simp only [trimBlanks_eq, List.dropWhile_append]
  split
  · rename_i h
    simp [List.isEmpty_iff.1 h, hb]
  · exact List.rdropWhile_concat_pos _ _ _ hb

/-! ### Splitting a text -/

theorem splitText_ne_nil (sep : Char → Bool) (cs : List Char) : splitText sep cs ≠ [] := by
  cases cs with
  | nil => simp [splitText]
  | cons c cs =>
    simp only [splitText]
    repeat' split
    all_goals simp

/-- A text without a separator is one part. -/
theorem splitText_of_no_sep {sep : Char → Bool} {cs : List Char} (h : ∀ c ∈ cs, sep c = false) :
    splitText sep cs = [cs] := by
  induction cs with
  | nil => rfl
  | cons c cs ih => simp [splitText, h c (by simp), ih fun x hx => h x (by simp [hx])]

/-- The text before the first separator is the first part. -/
theorem splitText_append {sep : Char → Bool} {cs : List Char} {c : Char} (h : ∀ c ∈ cs, sep c = false)
    (hc : sep c = true) (rest : List Char) : splitText sep (cs ++ c :: rest) = cs :: splitText sep rest := by
  induction cs with
  | nil => simp [splitText, hc]
  | cons x cs ih => simp [splitText, h x (by simp), ih fun y hy => h y (by simp [hy])]

/-- A character that is no separator, put behind a text, is put behind its last part. -/
theorem splitText_concat {sep : Char → Bool} {b : Char} (hb : sep b = false) (cs : List Char) :
    List.Forall₂ (fun x y => x = y ∨ x = y ++ [b]) (splitText sep (cs ++ [b])) (splitText sep cs) := by
  have same (l : List (List Char)) : List.Forall₂ (fun x y => x = y ∨ x = y ++ [b]) l l :=
    List.forall₂_same.2 fun _ _ => .inl rfl
  induction cs with
  | nil => simp [splitText, hb]
  | cons c cs ih =>
    simp only [List.cons_append, splitText]
    split
    · exact .cons (.inl rfl) ih
    · revert ih
      cases hx : splitText sep (cs ++ [b]) with
      | nil => exact absurd hx (splitText_ne_nil _ _)
      | cons x xs =>
        cases hy : splitText sep cs with
        | nil => exact absurd hy (splitText_ne_nil _ _)
        | cons y ys =>
          rintro (_ | ⟨h, t⟩)
          exact .cons (h.imp (congrArg _) (congrArg _)) t

/-! ### Operands -/

theorem splitOperands_blank_cons (cs : List Char) : splitOperands (' ' :: cs) = splitOperands cs := by
  have hb : isBlank ' ' = true := by decide
  simp only [splitOperands, trimBlanks_blank_cons hb]
  split
  · rfl
  · cases h : splitText (fun c => c = ',') cs with
    | nil => exact absurd h (splitText_ne_nil _ _)
    | cons x xs => simp [splitText, h, trimBlanks_blank_cons hb]

theorem splitOperands_concat_blank {b : Char} (hb : isBlank b = true) (cs : List Char) :
    splitOperands (cs ++ [b]) = splitOperands cs := by
  have hsep : (fun c : Char => decide (c = ',')) b = false := by
    simp only [decide_eq_false_iff_not]; rintro rfl; revert hb; decide
  simp only [splitOperands, trimBlanks_concat_blank hb]
  split
  · rfl
  · have := splitText_concat (sep := fun c => c = ',') hsep cs
    generalize splitText _ (cs ++ [b]) = l, splitText _ cs = l' at this
    induction this with
    | nil => rfl
    | cons h _ ih => rcases h with rfl | rfl <;> simp [ih, trimBlanks_concat_blank hb]

theorem splitOperands_rdropWhile (cs : List Char) : splitOperands (cs.rdropWhile isBlank) = splitOperands cs := by
  induction cs using List.reverseRecOn with
  | nil => rfl
  | append_singleton cs b ih =>
    by_cases hb : isBlank b = true
    · rw [List.rdropWhile_concat_pos _ _ _ hb, splitOperands_concat_blank hb, ih]
    · rw [List.rdropWhile_concat_neg _ _ _ hb]

theorem isOperandText_iff (cs : List Char) : isOperandText cs = true ↔ ∀ c ∈ cs, c ≠ ',' ∧ c ≠ ';' := by
  simp [isOperandText]

/-- One operand: itself without the white space around it, and no operand at all if it is only white space. -/
theorem splitOperands_one {a : List Char} (ha : isOperandText a = true) :
    splitOperands a = if (trimBlanks a).isEmpty then [] else [trimBlanks a] := by
  rw [isOperandText_iff] at ha
  simp only [splitOperands, splitText_of_no_sep fun c hc => decide_eq_false (ha c hc).1, List.map_cons, List.map_nil]

theorem splitText_joinText {ops : List (List Char)} (h : ∀ a ∈ ops, isOperandText a = true) (hne : ops ≠ []) :
    (splitText (fun c => c = ',') (joinText [',', ' '] ops)).map trimBlanks = ops.map trimBlanks := by
  have comma {a : List Char} (ha : isOperandText a = true) : ∀ c ∈ a, (fun c : Char => decide (c = ',')) c = false :=
    fun c hc => decide_eq_false ((isOperandText_iff a).1 ha c hc).1
  induction ops with
  | nil => contradiction
  | cons a ops ih =>
    cases ops with
    | nil => simp [joinText, splitText_of_no_sep (comma (h a (by simp)))]
    | cons b ops =>
      have ih := ih (fun x hx => h x (by simp [hx])) (by simp)
      simp only [joinText, List.append_assoc, List.cons_append, List.nil_append]
      rw [splitText_append (comma (h a (by simp))) (by decide)]
      cases hs : splitText (fun c => decide (c = ',')) (joinText [',', ' '] (b :: ops)) with
      | nil => exact absurd hs (splitText_ne_nil _ _)
      | cons x xs => simp_all [splitText, trimBlanks_blank_cons (show isBlank ' ' = true by decide)]

/-- Two operands or more: each without the white space around it. -/
theorem splitOperands_joinText {a b : List Char} {ops : List (List Char)}
    (h : ∀ x ∈ a :: b :: ops, isOperandText x = true) :
    splitOperands (joinText [',', ' '] (a :: b :: ops)) = (a :: b :: ops).map trimBlanks := by
  have hne : (trimBlanks (joinText [',', ' '] (a :: b :: ops))).isEmpty = false := by
    have hmem : ',' ∈ joinText [',', ' '] (a :: b :: ops) := by simp [joinText]
    by_contra hc
    rw [Bool.not_eq_false, List.isEmpty_iff, trimBlanks_eq, List.rdropWhile_eq_nil_iff] at hc
    by_cases hd : (joinText [',', ' '] (a :: b :: ops)).dropWhile isBlank = []
    · exact absurd (List.dropWhile_eq_nil_iff.1 hd _ hmem) (by decide)
    · exact absurd (hc _ (List.head_mem hd)) (by simp [List.head_dropWhile_not])
  rw [splitOperands, hne]
  exact splitText_joinText h (by simp)

/-! ### A whole line -/

/-- The characters of a mnemonic: no white space and no semicolon. -/
abbrev MnemonicText (m : List Char) : Prop := m ≠ [] ∧ ∀ c ∈ m, isBlank c = false ∧ c ≠ ';'

/-- Characters behind one that is not white space lose their own white space only. -/
theorem rdropWhile_append_of_last {m : List Char} (hne : m ≠ []) (hm : ∀ c ∈ m, isBlank c = false) (z : List Char) :
    (m ++ z).rdropWhile isBlank = m ++ z.rdropWhile isBlank := by
  induction z using List.reverseRecOn with
  | nil => simpa [List.rdropWhile_eq_self_iff] using fun _ => hm _ (List.getLast_mem hne)
  | append_singleton z b ih =>
    rw [← List.append_assoc]
    by_cases hb : isBlank b = true
    · rw [List.rdropWhile_concat_pos _ _ _ hb, List.rdropWhile_concat_pos _ _ _ hb, ih]
    · rw [List.rdropWhile_concat_neg _ _ _ hb, List.rdropWhile_concat_neg _ _ _ hb, List.append_assoc]

/-- What the reader makes of a mnemonic and of what stands behind it. -/
theorem assembleLine_append {m body : List Char} (n d : Nat) (hm : MnemonicText m) (hbody : ∀ c ∈ body, c ≠ ';')
    (hstart : ∀ c cs, body = c :: cs → isBlank c = true) :
    assembleLine n d (m ++ body) = assembleCommand n (readCommand d m (splitOperands body)) := by
  obtain ⟨hne, hm⟩ := hm
  have hcomment : (m ++ body).takeWhile (fun c => c ≠ ';') = m ++ body := by
    refine List.takeWhile_eq_self_iff.2 fun c hc => ?_
    simpa using (List.mem_append.1 hc).elim (fun h => (hm c h).2) (hbody c)
  have htext : trimBlanks (m ++ body) = m ++ body.rdropWhile isBlank := by
    obtain ⟨c, cs, rfl⟩ := List.exists_cons_of_ne_nil hne
    rw [trimBlanks_eq, List.cons_append, List.dropWhile_cons_of_neg (by simp [hm c (by simp)]), ← List.cons_append]
    exact rdropWhile_append_of_last hne (fun x hx => (hm x hx).1) body
  have hall : ∀ c ∈ m, (!isBlank c) = true := fun c hc => by simp [(hm c hc).1]
  have hz : (body.rdropWhile isBlank).takeWhile (fun c => !isBlank c) = [] ∧
      (body.rdropWhile isBlank).dropWhile (fun c => !isBlank c) = body.rdropWhile isBlank := by
    have hpre := List.rdropWhile_prefix isBlank body
    revert hpre
    cases body.rdropWhile isBlank with
    | nil => simp
    | cons c cs =>
      rintro ⟨t, ht⟩
      simp [hstart c (cs ++ t) ht.symm]
  unfold assembleLine
  simp only [hcomment, htext]
  simp [List.takeWhile_append_of_pos hall, List.dropWhile_append_of_pos hall, hz, hne,
    splitOperands_rdropWhile]

theorem isOperandText_joinText {ops : List (List Char)} (h : ∀ a ∈ ops, isOperandText a = true) :
    ∀ c ∈ joinText [',', ' '] ops, c ≠ ';' := by
  induction ops with
  | nil => simp [joinText]
  | cons a ops ih =>
    have ha := fun c hc => ((isOperandText_iff a).1 (h a (by simp)) c hc).2
    cases ops with
    | nil => simpa [joinText] using ha
    | cons b ops =>
      have ih := ih fun x hx => h x (by simp [hx])
      intro c hc
      simp only [joinText, List.mem_append, List.mem_cons, List.not_mem_nil, or_false] at hc
      rcases hc with (hc | rfl | rfl) | hc
      · exact ha c hc
      · decide
      · decide
      · exact ih c hc

/-- A line without operands. -/
theorem assembleLine_lineText_nil {m : String} (n d : Nat) (hm : MnemonicText m.toList) :
    assembleLine n d (lineText m []) = assembleCommand n (readCommand d m.toList []) := by
  have := assembleLine_append (body := []) n d hm (by simp) (by simp)
  simpa [lineText, splitOperands, trimBlanks] using this

/-- A line that `lineText` wrote is read as its mnemonic and its operands, each without the white space around it. -/
theorem assembleLine_lineText {m : String} {a : List Char} {ops : List (List Char)} (n d : Nat)
    (hm : MnemonicText m.toList) (h : ∀ x ∈ a :: ops, isOperandText x = true) :
    assembleLine n d (lineText m (a :: ops)) = assembleCommand n (readCommand d m.toList
      (if ops = [] ∧ (trimBlanks a).isEmpty then [] else (a :: ops).map trimBlanks)) := by
  have hbody : ∀ c ∈ ' ' :: joinText [',', ' '] (a :: ops), c ≠ ';' := by
    rintro c (_ | ⟨_, hc⟩)
    · decide
    · exact isOperandText_joinText h c hc
  have hstart : ∀ c cs, ' ' :: joinText [',', ' '] (a :: ops) = c :: cs → isBlank c = true := by
    rintro c cs h
    rw [← (List.cons.inj h).1]; decide
  rw [lineText, assembleLine_append n d hm hbody hstart, splitOperands_blank_cons]
  cases ops with
  | nil => simp [joinText, splitOperands_one (h a (by simp))]
  | cons b ops => simp [splitOperands_joinText h]

/-! ### Numbers and payloads, written and read back (R85) -/

/-- A text that starts and ends with something other than white space. -/
theorem trimBlanks_of_ends {cs : List Char} (hne : cs ≠ []) (hh : isBlank (cs.head hne) = false)
    (hl : isBlank (cs.getLast hne) = false) : trimBlanks cs = cs := by
  have hd : cs.dropWhile isBlank = cs := by
    obtain ⟨c, cs, rfl⟩ := List.exists_cons_of_ne_nil hne
    simpa using hh
  simp only [trimBlanks_eq, hd, List.rdropWhile_eq_self_iff]
  simp [hl]

/-- A hexadecimal digit is read back, and it is no white space and ends no operand. -/
theorem hexDigit_digitChar : ∀ v < 16, hexDigit (Nat.digitChar v) = some v ∧
    isBlank (Nat.digitChar v) = false ∧ Nat.digitChar v ≠ ',' ∧ Nat.digitChar v ≠ ';' := by
  decide

theorem digitsValue_append (base : Nat) (xs ys : List Char) (acc : Nat) :
    digitsValue base (xs ++ ys) acc = (digitsValue base xs acc).bind (digitsValue base ys) := by
  induction xs generalizing acc with
  | nil => rfl
  | cons x xs ih =>
    simp only [List.cons_append, digitsValue]
    cases hexDigit x with
    | none => rfl
    | some v => by_cases hv : v < base <;> simp [hv, ih]

/-- The decimal digits of a number have its value. -/
theorem digitsValue_decimalText (k : Nat) : digitsValue 10 (decimalText k) 0 = some k := by
  induction k using Nat.strong_induction_on with
  | _ k ih =>
    unfold decimalText at *
    by_cases hk : k < 10
    · rw [Nat.toDigits_of_lt_base hk]
      simp [digitsValue, (hexDigit_digitChar k (by omega)).1, hk]
    · have hr : k % 10 < 10 := by omega
      rw [Nat.toDigits_of_base_le (by decide) (by omega), digitsValue_append, ih (k / 10) (by omega)]
      simp [digitsValue, (hexDigit_digitChar (k % 10) (by omega)).1, hr]
      omega

/-- No decimal digit is white space or ends an operand, and none is the x of a hexadecimal prefix. -/
theorem mem_decimalText {k : Nat} {c : Char} (hc : c ∈ decimalText k) :
    isBlank c = false ∧ c ≠ ',' ∧ c ≠ ';' ∧ c ≠ 'x' := by
  have hd : c.isDigit = true := Nat.isDigit_of_mem_toDigits (by decide) (by decide) hc
  refine ⟨?_, ?_, ?_, ?_⟩
  · by_contra h
    simp only [isBlank, Bool.not_eq_false, Bool.or_eq_true, decide_eq_true_eq] at h
    rcases h with rfl | rfl <;> exact absurd hd (by decide)
  all_goals rintro rfl; exact absurd hd (by decide)

theorem decimalText_ne_nil (k : Nat) : decimalText k ≠ [] := Nat.toDigits_ne_nil

/-- A number is read back from its decimal text. -/
theorem parseNumber_decimalText (k : Nat) : parseNumber (decimalText k) = some k := by
  have hx (h : 'x' ∈ decimalText k) : False := (mem_decimalText h).2.2.2 rfl
  unfold parseNumber
  split
  · rename_i h
    exact (hx (by rw [h]; simp)).elim
  · simp [parseDigits, decimalText_ne_nil, digitsValue_decimalText]

theorem parseBits_decimalText {w k : Nat} (hk : k < 2 ^ w) :
    parseBits w (decimalText k) = some (BitVec.ofNat w k) := by
  simp [parseBits, parseNumber_decimalText, hk]

theorem trimBlanks_decimalText (k : Nat) : trimBlanks (decimalText k) = decimalText k :=
  trimBlanks_of_ends (decimalText_ne_nil k) (mem_decimalText (List.head_mem _)).1 (mem_decimalText (List.getLast_mem _)).1

theorem isOperandText_decimalText (k : Nat) : isOperandText (decimalText k) = true :=
  (isOperandText_iff _).2 fun _ hc => ⟨(mem_decimalText hc).2.1, (mem_decimalText hc).2.2.1⟩

/-- A byte is read back from its two digits. -/
theorem parseHexByte_byteText (b : Byte) : parseHexByte (byteText b) = some b := by
  have h₁ := (hexDigit_digitChar (b.toNat / 16) (by omega)).1
  have h₂ := (hexDigit_digitChar (b.toNat % 16) (by omega)).1
  simp [parseHexByte, byteText, h₁, h₂, Nat.div_add_mod]

theorem byteText_no_blank (b : Byte) : ∀ c ∈ byteText b, isBlank c = false ∧ c ≠ ',' ∧ c ≠ ';' := by
  simp only [byteText, List.mem_cons, List.not_mem_nil, or_false]
  rintro c (rfl | rfl)
  · exact (hexDigit_digitChar _ (by omega)).2
  · exact (hexDigit_digitChar _ (by omega)).2

/-- The words of a text that has one blank between two of them. -/
theorem splitText_joinText_blank {ws : List (List Char)} (h : ∀ w ∈ ws, ∀ c ∈ w, isBlank c = false) (hne : ws ≠ []) :
    splitText isBlank (joinText [' '] ws) = ws := by
  induction ws with
  | nil => contradiction
  | cons w ws ih =>
    cases ws with
    | nil => simp [joinText, splitText_of_no_sep (h w (by simp))]
    | cons v ws =>
      have ih := ih (fun x hx => h x (by simp [hx])) (by simp)
      simp only [joinText, List.append_assoc, List.cons_append, List.nil_append]
      rw [splitText_append (h w (by simp)) (by decide), ih]

theorem mapM_parseHexByte (p : Bytes) : (p.map byteText).mapM parseHexByte = some p := by
  induction p with
  | nil => rfl
  | cons b p ih => simp [parseHexByte_byteText, ih]

/-- A payload is read back from its text. -/
theorem parsePayload_payloadText (p : Bytes) : parsePayload (payloadText p) = some p := by
  have hwords : (splitText isBlank (joinText [' '] (p.map byteText))).filter (fun w => !w.isEmpty) = p.map byteText := by
    cases p with
    | nil => rfl
    | cons b p =>
      rw [splitText_joinText_blank _ (by simp)]
      · exact List.filter_eq_self.2 fun w hw => by
          obtain ⟨b, _, rfl⟩ := List.mem_map.1 hw
          rfl
      · intro w hw c hc
        obtain ⟨b, _, rfl⟩ := List.mem_map.1 hw
        exact (byteText_no_blank b c hc).1
  simp only [parsePayload, payloadText, List.dropLast_concat, hwords, mapM_parseHexByte]
  simp

theorem mem_joinText {sep : List Char} {ws : List (List Char)} {c : Char} (h : c ∈ joinText sep ws) :
    c ∈ sep ∨ ∃ w ∈ ws, c ∈ w := by
  induction ws with
  | nil => simp [joinText] at h
  | cons w ws ih =>
    cases ws with
    | nil => exact .inr ⟨w, by simp, h⟩
    | cons v ws =>
      simp only [joinText, List.mem_append] at h
      rcases h with (h | h) | h
      · exact .inr ⟨w, by simp, h⟩
      · exact .inl h
      · exact (ih h).imp_right fun ⟨x, hx, hc⟩ => ⟨x, by simp [hx], hc⟩

theorem isOperandText_payloadText (p : Bytes) : isOperandText (payloadText p) = true := by
  rw [isOperandText_iff]
  intro c hc
  simp only [payloadText, List.mem_cons, List.mem_append, List.not_mem_nil, or_false] at hc
  rcases hc with rfl | hc | rfl
  · decide
  · rcases mem_joinText hc with hc | ⟨w, hw, hc⟩
    · revert hc; simp +contextual
    · obtain ⟨b, _, rfl⟩ := List.mem_map.1 hw
      exact (byteText_no_blank b c hc).2
  · decide

theorem trimBlanks_payloadText (p : Bytes) : trimBlanks (payloadText p) = payloadText p :=
  trimBlanks_of_ends (by simp [payloadText]) (by simp [payloadText]; decide) (by simp [payloadText]; decide)

end Sys2Proof.Machine
end

