-- ==== Sys2Proof/Laws/Encoding.lean ====
section
/-! SUPPORT. The fields of a packed command word, the length R78 gives each command's payload, and the byte forms of words. -/

namespace Sys2Proof

/-! ### Fields of a packed word (R71) -/

/-- R71: bit `j` of a command word is a bit of the field it lies in. -/
theorem getLsbD_packCmd (op a b c : Byte) (j : Nat) :
    (packCmd op a b c).getLsbD j =
      if j < 8 then op.getLsbD j
      else if j < 16 then a.getLsbD (j - 8)
      else if j < 24 then b.getLsbD (j - 16)
      else c.getLsbD (j - 24) := by
  have above (x : Byte) (k : Nat) (h : 8 ≤ k) : x.getLsbD k = false := BitVec.getLsbD_of_ge x k h
  split_ifs with h8 h16 h24
  · simp [packCmd, h8, show j < 16 by omega, show j < 24 by omega, show j < 32 by omega]
  · simp [packCmd, h8, h16, show j < 24 by omega, show j < 32 by omega, above op j (by omega)]
  · simp [packCmd, h8, h16, h24, show j < 32 by omega, above op j (by omega), above a (j - 8) (by omega)]
  · by_cases h32 : j < 32
    · simp [packCmd, h8, h16, h24, h32, above op j (by omega), above a (j - 8) (by omega),
        above b (j - 16) (by omega)]
    · simp [packCmd, h32, above c (j - 24) (by omega)]

@[simp] theorem fieldOp_packCmd (op a b c : Byte) : fieldOp (packCmd op a b c) = op := by
  ext j hj
  simp [fieldOp, BitVec.getElem_extractLsb', getLsbD_packCmd, hj]

@[simp] theorem fieldA_packCmd (op a b c : Byte) : fieldA (packCmd op a b c) = a := by
  ext j hj
  simp [fieldA, BitVec.getElem_extractLsb', getLsbD_packCmd, hj, show 8 + j < 16 by omega]

@[simp] theorem fieldB_packCmd (op a b c : Byte) : fieldB (packCmd op a b c) = b := by
  ext j hj
  simp [fieldB, BitVec.getElem_extractLsb', getLsbD_packCmd, hj, show ¬ 16 + j < 8 by omega,
    show 16 + j < 24 by omega]

@[simp] theorem fieldC_packCmd (op a b c : Byte) : fieldC (packCmd op a b c) = c := by
  ext j hj
  simp [fieldC, BitVec.getElem_extractLsb', getLsbD_packCmd, hj, show ¬ 24 + j < 8 by omega,
    show ¬ 24 + j < 16 by omega]

/-- R71: a command word is what its four fields pack to. -/
theorem packCmd_fields (cmd : Word) :
    packCmd (fieldOp cmd) (fieldA cmd) (fieldB cmd) (fieldC cmd) = cmd := by
  refine BitVec.eq_of_getLsbD_eq fun j hj => ?_
  rw [getLsbD_packCmd]
  split_ifs with h8 h16 h24
  · simp [fieldOp, h8]
  · simp [fieldA, show j - 8 < 8 by omega, show 8 + (j - 8) = j by omega]
  · simp [fieldB, show j - 16 < 8 by omega, show 16 + (j - 16) = j by omega]
  · simp [fieldC, show j - 24 < 8 by omega, show 24 + (j - 24) = j by omega]

/-! ### Words as bytes (R53) -/

/-- R53: four little-endian bytes carry the word they were made from. -/
@[simp] theorem bytesWord_wordBytes (w : Word) :
    bytesWord (w.extractLsb' 0 8) (w.extractLsb' 8 8) (w.extractLsb' 16 8) (w.extractLsb' 24 8) = w :=
  packCmd_fields w

@[simp] theorem wordBytes_length (w : Word) : (wordBytes w).length = 4 := rfl

/-- R83: a header followed by anything is read back. -/
@[simp] theorem splitHeader_header (cmd arg : Word) (rest : Bytes) :
    splitHeader (wordBytes cmd ++ wordBytes arg ++ rest) = some (cmd, arg, rest) := by
  simp [wordBytes, splitHeader]

namespace Machine

/-! ### Payload lengths (R78) -/

@[simp] theorem payloadLength_vzero (n : Nat) (vd : Byte) : payloadLength n (.vzero vd) = 0 := by
  simp [payloadLength, encode, lIn]

@[simp] theorem payloadLength_bget (n : Nat) (vs : Byte) (i : Word) : payloadLength n (.bget vs i) = 0 := by
  simp [payloadLength, encode, lIn]

@[simp] theorem payloadLength_bset (n : Nat) (vd : Byte) (i : Word) (val : Bool) :
    payloadLength n (.bset vd i val) = 0 := by
  simp [payloadLength, encode, lIn]

@[simp] theorem payloadLength_vxor (n : Nat) (vd va vb : Byte) : payloadLength n (.vxor vd va vb) = 0 := by
  simp [payloadLength, encode, lIn]

@[simp] theorem payloadLength_vcopy (n : Nat) (vd vs : Byte) : payloadLength n (.vcopy vd vs) = 0 := by
  simp [payloadLength, encode, lIn]

@[simp] theorem payloadLength_vload (n : Nat) (vd : Byte) : payloadLength n (.vload vd) = n := by
  simp [payloadLength, encode, lIn]

@[simp] theorem payloadLength_vstore (n : Nat) (vs : Byte) : payloadLength n (.vstore vs) = 0 := by
  simp [payloadLength, encode, lIn]

@[simp] theorem payloadLength_swrite (n : Nat) (cnt : Byte) :
    payloadLength n (.swrite cnt) = cnt.toNat * n := by
  simp [payloadLength, encode, lIn]

@[simp] theorem payloadLength_sread (n : Nat) (cnt : Byte) : payloadLength n (.sread cnt) = 0 := by
  simp [payloadLength, encode, lIn]

@[simp] theorem payloadLength_srestore (n : Nat) (idx : Byte) : payloadLength n (.srestore idx) = 0 := by
  simp [payloadLength, encode, lIn]

@[simp] theorem payloadLength_csrr (n : Nat) (csr : Byte) : payloadLength n (.csrr csr) = 0 := by
  simp [payloadLength, encode, lIn]

/-- R78: a chunk of a payload that is long enough has N bytes. -/
theorem payloadIn_length (n : Nat) (payload : Bytes) (k : Nat) (h : (k + 1) * n ≤ payload.length) :
    (payloadIn n payload k).length = n := by
  have : (k + 1) * n = k * n + n := Nat.succ_mul k n
  simp [payloadIn]
  omega

end Machine

end Sys2Proof
end

