-- ==== Sys2Proof/Laws/State.lean ====
section
/-! SUPPORT. What each update of the state does to each field of it: one lemma per field per update. -/

namespace Sys2Proof.Machine

/-! ### setMember -/

@[simp] theorem State.setMember_n (s : State) (m : Nat) (v : Bytes) :
    (s.setMember m v).n = s.n := rfl

@[simp] theorem State.setMember_d (s : State) (m : Nat) (v : Bytes) :
    (s.setMember m v).d = s.d := rfl

@[simp] theorem State.setMember_members (s : State) (m : Nat) (v : Bytes) :
    (s.setMember m v).members = s.members.set m v := rfl

@[simp] theorem State.setMember_status (s : State) (m : Nat) (v : Bytes) :
    (s.setMember m v).status = s.status := rfl

@[simp] theorem State.setMember_fcmd (s : State) (m : Nat) (v : Bytes) :
    (s.setMember m v).fcmd = s.fcmd := rfl

@[simp] theorem State.setMember_farg (s : State) (m : Nat) (v : Bytes) :
    (s.setMember m v).farg = s.farg := rfl

@[simp] theorem State.setMember_inbox (s : State) (m : Nat) (v : Bytes) :
    (s.setMember m v).inbox = s.inbox := rfl

@[simp] theorem State.setMember_outbox (s : State) (m : Nat) (v : Bytes) :
    (s.setMember m v).outbox = s.outbox := rfl

/-! ### respond -/

@[simp] theorem State.respond_n (s : State) (r : Response) :
    (s.respond r).n = s.n := rfl

@[simp] theorem State.respond_d (s : State) (r : Response) :
    (s.respond r).d = s.d := rfl

@[simp] theorem State.respond_members (s : State) (r : Response) :
    (s.respond r).members = s.members := rfl

@[simp] theorem State.respond_status (s : State) (r : Response) :
    (s.respond r).status = s.status := rfl

@[simp] theorem State.respond_fcmd (s : State) (r : Response) :
    (s.respond r).fcmd = s.fcmd := rfl

@[simp] theorem State.respond_farg (s : State) (r : Response) :
    (s.respond r).farg = s.farg := rfl

@[simp] theorem State.respond_inbox (s : State) (r : Response) :
    (s.respond r).inbox = s.inbox := rfl

@[simp] theorem State.respond_outbox (s : State) (r : Response) :
    (s.respond r).outbox = s.outbox ++ [r] := rfl

/-! ### respondOk -/

@[simp] theorem State.respondOk_n (s : State) (rval : Word) (payload : Bytes) :
    (s.respondOk rval payload).n = s.n := rfl

@[simp] theorem State.respondOk_d (s : State) (rval : Word) (payload : Bytes) :
    (s.respondOk rval payload).d = s.d := rfl

@[simp] theorem State.respondOk_members (s : State) (rval : Word) (payload : Bytes) :
    (s.respondOk rval payload).members = s.members := rfl

@[simp] theorem State.respondOk_status (s : State) (rval : Word) (payload : Bytes) :
    (s.respondOk rval payload).status = s.status := rfl

@[simp] theorem State.respondOk_fcmd (s : State) (rval : Word) (payload : Bytes) :
    (s.respondOk rval payload).fcmd = s.fcmd := rfl

@[simp] theorem State.respondOk_farg (s : State) (rval : Word) (payload : Bytes) :
    (s.respondOk rval payload).farg = s.farg := rfl

@[simp] theorem State.respondOk_inbox (s : State) (rval : Word) (payload : Bytes) :
    (s.respondOk rval payload).inbox = s.inbox := rfl

@[simp] theorem State.respondOk_outbox (s : State) (rval : Word) (payload : Bytes) :
    (s.respondOk rval payload).outbox = s.outbox ++ [⟨0, rval, payload⟩] := rfl

/-! ### refuse -/

@[simp] theorem State.refuse_n (s : State) :
    s.refuse.n = s.n := rfl

@[simp] theorem State.refuse_d (s : State) :
    s.refuse.d = s.d := rfl

@[simp] theorem State.refuse_members (s : State) :
    s.refuse.members = s.members := rfl

@[simp] theorem State.refuse_status (s : State) :
    s.refuse.status = s.status := rfl

@[simp] theorem State.refuse_fcmd (s : State) :
    s.refuse.fcmd = s.fcmd := rfl

@[simp] theorem State.refuse_farg (s : State) :
    s.refuse.farg = s.farg := rfl

@[simp] theorem State.refuse_inbox (s : State) :
    s.refuse.inbox = s.inbox := rfl

@[simp] theorem State.refuse_outbox (s : State) :
    s.refuse.outbox = s.outbox ++ [⟨respWord .refused s.fcode, 0, []⟩] := rfl

/-! ### raiseFault -/

@[simp] theorem State.raiseFault_n (s : State) (c : FaultCode) (t : Transaction) :
    (s.raiseFault c t).n = s.n := rfl

@[simp] theorem State.raiseFault_d (s : State) (c : FaultCode) (t : Transaction) :
    (s.raiseFault c t).d = s.d := rfl

@[simp] theorem State.raiseFault_members (s : State) (c : FaultCode) (t : Transaction) :
    (s.raiseFault c t).members = s.members := rfl

@[simp] theorem State.raiseFault_status (s : State) (c : FaultCode) (t : Transaction) :
    (s.raiseFault c t).status = statusWord (faultNumber c) := rfl

@[simp] theorem State.raiseFault_fcmd (s : State) (c : FaultCode) (t : Transaction) :
    (s.raiseFault c t).fcmd = t.cmd := rfl

@[simp] theorem State.raiseFault_farg (s : State) (c : FaultCode) (t : Transaction) :
    (s.raiseFault c t).farg = t.arg := rfl

@[simp] theorem State.raiseFault_inbox (s : State) (c : FaultCode) (t : Transaction) :
    (s.raiseFault c t).inbox = s.inbox := rfl

@[simp] theorem State.raiseFault_outbox (s : State) (c : FaultCode) (t : Transaction) :
    (s.raiseFault c t).outbox = s.outbox ++ [⟨respWord .fault (faultNumber c), 0, []⟩] := rfl

/-! ### hostReset -/

@[simp] theorem State.hostReset_n (s : State) (rest : List HostEvent) :
    (s.hostReset rest).n = s.n := rfl

@[simp] theorem State.hostReset_d (s : State) (rest : List HostEvent) :
    (s.hostReset rest).d = s.d := rfl

@[simp] theorem State.hostReset_members (s : State) (rest : List HostEvent) :
    (s.hostReset rest).members = List.replicate s.d (zeroVec s.n) := rfl

@[simp] theorem State.hostReset_status (s : State) (rest : List HostEvent) :
    (s.hostReset rest).status = 0 := rfl

@[simp] theorem State.hostReset_fcmd (s : State) (rest : List HostEvent) :
    (s.hostReset rest).fcmd = 0 := rfl

@[simp] theorem State.hostReset_farg (s : State) (rest : List HostEvent) :
    (s.hostReset rest).farg = 0 := rfl

@[simp] theorem State.hostReset_inbox (s : State) (rest : List HostEvent) :
    (s.hostReset rest).inbox = rest := rfl

@[simp] theorem State.hostReset_outbox (s : State) (rest : List HostEvent) :
    (s.hostReset rest).outbox = s.outbox := rfl

/-! ### submit -/

@[simp] theorem State.submit_n (s : State) (t : Transaction) :
    (s.submit t).n = s.n := rfl

@[simp] theorem State.submit_d (s : State) (t : Transaction) :
    (s.submit t).d = s.d := rfl

@[simp] theorem State.submit_members (s : State) (t : Transaction) :
    (s.submit t).members = s.members := rfl

@[simp] theorem State.submit_status (s : State) (t : Transaction) :
    (s.submit t).status = s.status := rfl

@[simp] theorem State.submit_fcmd (s : State) (t : Transaction) :
    (s.submit t).fcmd = s.fcmd := rfl

@[simp] theorem State.submit_farg (s : State) (t : Transaction) :
    (s.submit t).farg = s.farg := rfl

@[simp] theorem State.submit_inbox (s : State) (t : Transaction) :
    (s.submit t).inbox = s.inbox ++ [.submit t] := rfl

@[simp] theorem State.submit_outbox (s : State) (t : Transaction) :
    (s.submit t).outbox = s.outbox := rfl

/-! ### assertReset -/

@[simp] theorem State.assertReset_n (s : State) :
    s.assertReset.n = s.n := rfl

@[simp] theorem State.assertReset_d (s : State) :
    s.assertReset.d = s.d := rfl

@[simp] theorem State.assertReset_members (s : State) :
    s.assertReset.members = s.members := rfl

@[simp] theorem State.assertReset_status (s : State) :
    s.assertReset.status = s.status := rfl

@[simp] theorem State.assertReset_fcmd (s : State) :
    s.assertReset.fcmd = s.fcmd := rfl

@[simp] theorem State.assertReset_farg (s : State) :
    s.assertReset.farg = s.farg := rfl

@[simp] theorem State.assertReset_inbox (s : State) :
    s.assertReset.inbox = s.inbox ++ [.reset] := rfl

@[simp] theorem State.assertReset_outbox (s : State) :
    s.assertReset.outbox = s.outbox := rfl

/-! ### Waiting and the reset state -/

@[simp] theorem State.wait_eq (s : State) : s.wait = s := rfl

@[simp] theorem State.resetFor_n (n d : Nat) : (State.resetFor n d).n = n := rfl

@[simp] theorem State.resetFor_d (n d : Nat) : (State.resetFor n d).d = d := rfl

@[simp] theorem State.resetFor_members (n d : Nat) :
    (State.resetFor n d).members = List.replicate d (zeroVec n) := rfl

@[simp] theorem State.resetFor_status (n d : Nat) : (State.resetFor n d).status = 0 := rfl

@[simp] theorem State.resetFor_fcmd (n d : Nat) : (State.resetFor n d).fcmd = 0 := rfl

@[simp] theorem State.resetFor_farg (n d : Nat) : (State.resetFor n d).farg = 0 := rfl

@[simp] theorem State.resetFor_inbox (n d : Nat) : (State.resetFor n d).inbox = [] := rfl

@[simp] theorem State.resetFor_outbox (n d : Nat) : (State.resetFor n d).outbox = [] := rfl

/-! ### completedWith, faultedWith, refusedAnswer -/

@[simp] theorem completedWith_n (s : State) (rest : List HostEvent) (ms : List Bytes) (rval : Word) (out : Bytes) :
    (completedWith s rest ms rval out).n = s.n := rfl

@[simp] theorem completedWith_d (s : State) (rest : List HostEvent) (ms : List Bytes) (rval : Word) (out : Bytes) :
    (completedWith s rest ms rval out).d = s.d := rfl

@[simp] theorem completedWith_members (s : State) (rest : List HostEvent) (ms : List Bytes) (rval : Word) (out : Bytes) :
    (completedWith s rest ms rval out).members = ms := rfl

@[simp] theorem completedWith_status (s : State) (rest : List HostEvent) (ms : List Bytes) (rval : Word) (out : Bytes) :
    (completedWith s rest ms rval out).status = s.status := rfl

@[simp] theorem completedWith_fcmd (s : State) (rest : List HostEvent) (ms : List Bytes) (rval : Word) (out : Bytes) :
    (completedWith s rest ms rval out).fcmd = s.fcmd := rfl

@[simp] theorem completedWith_farg (s : State) (rest : List HostEvent) (ms : List Bytes) (rval : Word) (out : Bytes) :
    (completedWith s rest ms rval out).farg = s.farg := rfl

@[simp] theorem completedWith_inbox (s : State) (rest : List HostEvent) (ms : List Bytes) (rval : Word) (out : Bytes) :
    (completedWith s rest ms rval out).inbox = rest := rfl

@[simp] theorem completedWith_outbox (s : State) (rest : List HostEvent) (ms : List Bytes) (rval : Word) (out : Bytes) :
    (completedWith s rest ms rval out).outbox = s.outbox ++ [⟨0, rval, out⟩] := rfl

@[simp] theorem faultedWith_n (s : State) (rest : List HostEvent) (t : Transaction) (code : BitVec 4) :
    (faultedWith s rest t code).n = s.n := rfl

@[simp] theorem faultedWith_d (s : State) (rest : List HostEvent) (t : Transaction) (code : BitVec 4) :
    (faultedWith s rest t code).d = s.d := rfl

@[simp] theorem faultedWith_members (s : State) (rest : List HostEvent) (t : Transaction) (code : BitVec 4) :
    (faultedWith s rest t code).members = s.members := rfl

@[simp] theorem faultedWith_status (s : State) (rest : List HostEvent) (t : Transaction) (code : BitVec 4) :
    (faultedWith s rest t code).status = (code.setWidth 32 <<< 4) ||| 1 := rfl

@[simp] theorem faultedWith_fcmd (s : State) (rest : List HostEvent) (t : Transaction) (code : BitVec 4) :
    (faultedWith s rest t code).fcmd = t.cmd := rfl

@[simp] theorem faultedWith_farg (s : State) (rest : List HostEvent) (t : Transaction) (code : BitVec 4) :
    (faultedWith s rest t code).farg = t.arg := rfl

@[simp] theorem faultedWith_inbox (s : State) (rest : List HostEvent) (t : Transaction) (code : BitVec 4) :
    (faultedWith s rest t code).inbox = rest := rfl

@[simp] theorem refusedAnswer_n (s : State) (rest : List HostEvent) :
    (refusedAnswer s rest).n = s.n := rfl

@[simp] theorem refusedAnswer_d (s : State) (rest : List HostEvent) :
    (refusedAnswer s rest).d = s.d := rfl

@[simp] theorem refusedAnswer_members (s : State) (rest : List HostEvent) :
    (refusedAnswer s rest).members = s.members := rfl

@[simp] theorem refusedAnswer_status (s : State) (rest : List HostEvent) :
    (refusedAnswer s rest).status = s.status := rfl

@[simp] theorem refusedAnswer_fcmd (s : State) (rest : List HostEvent) :
    (refusedAnswer s rest).fcmd = s.fcmd := rfl

@[simp] theorem refusedAnswer_farg (s : State) (rest : List HostEvent) :
    (refusedAnswer s rest).farg = s.farg := rfl

@[simp] theorem refusedAnswer_inbox (s : State) (rest : List HostEvent) :
    (refusedAnswer s rest).inbox = rest := rfl

/-! ### What reads only some fields -/

@[simp] theorem State.member_inbox (s : State) (q : List HostEvent) (m : Nat) :
    ({ s with inbox := q } : State).member m = s.member m := rfl

@[simp] theorem State.member_respondOk (s : State) (rval : Word) (payload : Bytes) (m : Nat) :
    (s.respondOk rval payload).member m = s.member m := rfl

@[simp] theorem State.member_refuse (s : State) (m : Nat) : s.refuse.member m = s.member m := rfl

@[simp] theorem State.member_raiseFault (s : State) (c : FaultCode) (t : Transaction) (m : Nat) :
    (s.raiseFault c t).member m = s.member m := rfl

@[simp] theorem State.faulted_inbox (s : State) (q : List HostEvent) :
    ({ s with inbox := q } : State).faulted = s.faulted := rfl

@[simp] theorem State.faulted_setMember (s : State) (m : Nat) (v : Bytes) :
    (s.setMember m v).faulted = s.faulted := rfl

@[simp] theorem State.faulted_respondOk (s : State) (rval : Word) (payload : Bytes) :
    (s.respondOk rval payload).faulted = s.faulted := rfl

@[simp] theorem State.faulted_refuse (s : State) : s.refuse.faulted = s.faulted := rfl

/-! ### writeData, by its fold -/

/-- R131: writing the data slots touches nothing but the register file, and keeps its size. -/
theorem writeData_fold (payload : Bytes) (n : Nat) (ks : List Nat) (s : State) :
    ks.foldl (fun s' k => s'.setMember k (payloadIn n payload k)) s =
      { s with members := ks.foldl (fun ms k => ms.set k (payloadIn n payload k)) s.members } := by
  induction ks generalizing s with
  | nil => rfl
  | cons k ks ih => simpa using ih (s.setMember k (payloadIn n payload k))

/-- R131: `writeData` as one update of the register file. -/
theorem State.writeData_eq (s : State) (payload : Bytes) :
    s.writeData payload =
      { s with members :=
          (List.range s.k).foldl (fun ms k => ms.set k (payloadIn s.n payload k)) s.members } :=
  writeData_fold payload s.n _ s

@[simp] theorem State.writeData_n (s : State) (payload : Bytes) :
    (s.writeData payload).n = s.n := by
  rw [State.writeData_eq]

@[simp] theorem State.writeData_d (s : State) (payload : Bytes) :
    (s.writeData payload).d = s.d := by
  rw [State.writeData_eq]

@[simp] theorem State.writeData_status (s : State) (payload : Bytes) :
    (s.writeData payload).status = s.status := by
  rw [State.writeData_eq]

@[simp] theorem State.writeData_fcmd (s : State) (payload : Bytes) :
    (s.writeData payload).fcmd = s.fcmd := by
  rw [State.writeData_eq]

@[simp] theorem State.writeData_farg (s : State) (payload : Bytes) :
    (s.writeData payload).farg = s.farg := by
  rw [State.writeData_eq]

@[simp] theorem State.writeData_inbox (s : State) (payload : Bytes) :
    (s.writeData payload).inbox = s.inbox := by
  rw [State.writeData_eq]

@[simp] theorem State.writeData_outbox (s : State) (payload : Bytes) :
    (s.writeData payload).outbox = s.outbox := by
  rw [State.writeData_eq]

end Sys2Proof.Machine
end

