-- ==== Sys2Proof/Laws/Vectors.lean ====
section
/-! SUPPORT. Vectors and the register file: lengths, bytes, and what a write leaves alone. -/

namespace Sys2Proof.Machine

@[simp] theorem zeroVec_length (n : Nat) : (zeroVec n).length = n := by simp [zeroVec]

@[simp] theorem byteAt_zeroVec (n j : Nat) : byteAt (zeroVec n) j = 0 := by
  simp [byteAt, zeroVec, List.getD_eq_getElem?_getD, List.getElem?_replicate]
  split <;> rfl

@[simp] theorem xorVec_length (a b : Bytes) : (xorVec a b).length = min a.length b.length := by
  simp [xorVec]

/-- Two vectors of one length with the same bytes are the same vector. -/
theorem bytes_ext (n : Nat) (a b : Bytes) (ha : a.length = n) (hb : b.length = n)
    (h : ∀ j < n, byteAt a j = byteAt b j) : a = b := by
  refine List.ext_getElem (by omega) fun j hj hj' => ?_
  have := h j (by omega)
  simpa [byteAt, List.getD_eq_getElem?_getD, hj, hj'] using this

/-- R13: XOR of vectors of one length is XOR of each byte. -/
theorem byteAt_xorVec (a b : Bytes) (j : Nat) (h : a.length = b.length) :
    byteAt (xorVec a b) j = byteAt a j ^^^ byteAt b j := by
  by_cases hj : j < a.length
  · simp [byteAt, xorVec, List.getD_eq_getElem?_getD, hj, h ▸ hj]
  · have past (v : Bytes) (hv : v.length ≤ j) : byteAt v j = 0 := by
      simp [byteAt, List.getD_eq_getElem?_getD, List.getElem?_eq_none hv]
    rw [past _ (by simp; omega), past a (by omega), past b (by omega)]
    rfl

@[simp] theorem writeBit_length (v : Bytes) (i : Word) (val : Bool) : (writeBit v i val).length = v.length := by
  simp [writeBit]

/-! ### The register file -/

/-- R23: a member that exists has N bytes. -/
theorem member_length {s : State} (hs : WellSized s) {m : Nat} (hm : m < s.d) : (s.member m).length = s.n := by
  have hm' : m < s.members.length := hs.1 ▸ hm
  simpa [State.member, List.getD_eq_getElem?_getD, hm'] using hs.2 _ (List.getElem_mem hm')

/-- R21: a register just written reads as the value written. -/
theorem member_setMember_self {s : State} {m : Nat} (v : Bytes) (hm : m < s.members.length) :
    (s.setMember m v).member m = v := by
  simp [State.member, List.getD_eq_getElem?_getD, hm]

/-- R25: a write changes no other register. -/
theorem member_setMember_ne (s : State) {m m' : Nat} (v : Bytes) (h : m ≠ m') :
    (s.setMember m v).member m' = s.member m' := by
  simp [State.member, List.getD_eq_getElem?_getD, h]

/-- R23: writing a vector of N bytes keeps the size of the register file. -/
theorem wellSized_setMember {s : State} (hs : WellSized s) (m : Nat) {v : Bytes} (hv : v.length = s.n) :
    WellSized (s.setMember m v) := by
  refine ⟨by simpa using hs.1, fun w hw => ?_⟩
  rcases List.mem_or_eq_of_mem_set hw with h | h
  · exact hs.2 w h
  · exact h ▸ hv

/-- The XOR of any members that exist has N bytes. -/
theorem xorMembers_length {s : State} (hs : WellSized s) {js : List Nat} (hjs : ∀ j ∈ js, j < s.d) :
    (s.xorMembers js).length = s.n := by
  have go : ∀ (js : List Nat) (acc : Bytes), acc.length = s.n → (∀ j ∈ js, j < s.d) →
      (js.foldl (fun acc j => xorVec acc (s.member j)) acc).length = s.n := by
    intro js
    induction js with
    | nil => exact fun acc h _ => h
    | cons j js ih =>
      intro acc h hall
      refine ih _ ?_ fun k hk => hall k (List.mem_cons_of_mem _ hk)
      simp [h, member_length hs (hall j List.mem_cons_self)]
  exact go js _ (zeroVec_length _) hjs

/-- R13: a byte of the XOR of members that exist is the XOR of that byte of each. -/
theorem byteAt_xorMembers {s : State} (hs : WellSized s) {js : List Nat} (hjs : ∀ j ∈ js, j < s.d) (x : Nat) :
    byteAt (s.xorMembers js) x = xorBytes (js.map fun m => byteAt (s.member m) x) := by
  have go : ∀ (js : List Nat) (acc : Bytes) (b : Byte), acc.length = s.n → byteAt acc x = b → (∀ j ∈ js, j < s.d) →
      byteAt (js.foldl (fun acc j => xorVec acc (s.member j)) acc) x =
        (js.map fun m => byteAt (s.member m) x).foldl (fun x y => x ^^^ y) b := by
    intro js
    induction js with
    | nil => intro acc b _ hb _; simpa using hb
    | cons j js ih =>
      intro acc b hl hb hall
      have hm := member_length hs (hall j List.mem_cons_self)
      refine ih _ _ (by simp [hl, hm]) ?_ fun k hk => hall k (List.mem_cons_of_mem _ hk)
      rw [byteAt_xorVec _ _ _ (by omega), hb]
  exact go js _ _ (zeroVec_length _) (byteAt_zeroVec _ _) hjs

/-- The XOR of members depends on those members alone. -/
theorem xorMembers_congr {s s' : State} {js : List Nat} (hn : s'.n = s.n)
    (h : ∀ j ∈ js, s'.member j = s.member j) : s'.xorMembers js = s.xorMembers js := by
  unfold State.xorMembers
  rw [hn]
  generalize zeroVec s.n = acc
  induction js generalizing acc with
  | nil => rfl
  | cons j js ih =>
    simp only [List.foldl_cons]
    rw [h j List.mem_cons_self]
    exact ih (fun k hk => h k (List.mem_cons_of_mem _ hk)) _

/-- R132: the parity has N bytes. -/
theorem parity_length {s : State} (hs : WellSized s) : s.parity.length = s.n :=
  xorMembers_length hs fun j hj => by
    have := List.mem_range.1 hj
    unfold State.k at this
    omega

/-- R136: a reconstructed member has N bytes. -/
theorem recon_length {s : State} (hs : WellSized s) (hd : 2 ≤ s.d) (i : Nat) : (s.recon i).length = s.n := by
  have hk : ((s.xorMembers ((List.range s.k).filter fun j => j ≠ i))).length = s.n :=
    xorMembers_length hs fun j hj => by
      have := List.mem_range.1 (List.mem_filter.1 hj).1
      unfold State.k at this
      omega
  have hp : s.p < s.d := by
    unfold State.p
    omega
  rw [State.recon, xorVec_length, hk, member_length hs hp, Nat.min_self]

/-! ### Bits of a vector -/

/-- R102: what BGET reads is the bit, zero-extended. -/
theorem readBit_eq (v : Bytes) (i : Word) : (readBit v i).setWidth 32 = if bitAt v i.toNat then 1#32 else 0#32 := by
  have key : ∀ (k : Fin 8) (b : Byte),
      ((b >>> k.val) &&& 1#8).setWidth 32 = if b.getLsbD k.val then 1#32 else 0#32 := by decide +revert
  exact key ⟨i.toNat % 8, Nat.mod_lt _ (by decide)⟩ (byteAt v (i.toNat / 8))

/-- R104: the byte that BSET writes, bit by bit. -/
theorem getLsbD_writtenByte (k x : Fin 8) (b : Byte) (val : Bool) :
    ((b &&& ~~~((1 : Byte) <<< k.val)) ||| ((BitVec.ofBool val).setWidth 8 <<< k.val)).getLsbD x.val =
      if x = k then val else b.getLsbD x.val := by
  obtain ⟨k, hk⟩ := k
  obtain ⟨x, hx⟩ := x
  rcases Nat.lt_trichotomy x k with h | h | h
  · simp [h, hx, show x ≠ k by omega]
  · subst h
    simp [hx]
  · simp [hx, show ¬ x < k by omega, show x ≠ k by omega, show x - k ≠ 0 by omega]

/-- R104: writing a bit that exists changes that bit alone. -/
theorem bitAt_writeBit (v : Bytes) (i : Word) (val : Bool) (hi : i.toNat < 8 * v.length) (x : Nat) :
    bitAt (writeBit v i val) x = if x = i.toNat then val else bitAt v x := by
  unfold bitAt writeBit byteIndex bitPosition
  simp only
  by_cases hj : x / 8 = i.toNat / 8
  · have hin : i.toNat / 8 < v.length := by omega
    have := getLsbD_writtenByte ⟨i.toNat % 8, by omega⟩ ⟨x % 8, by omega⟩ (byteAt v (i.toNat / 8)) val
    simp only [Fin.mk.injEq] at this
    rw [hj, show ∀ b, byteAt (v.set (i.toNat / 8) b) (i.toNat / 8) = b by
      simp [byteAt, List.getD_eq_getElem?_getD, hin], this]
    by_cases hx : x = i.toNat
    · simp [hx]
    · simp [hx, show x % 8 ≠ i.toNat % 8 by omega]
  · simp [show x ≠ i.toNat from fun h => hj (by rw [h]), byteAt, List.getD_eq_getElem?_getD, Ne.symm hj]

/-! ### Stripe payloads -/

/-- R14, R131: byte `j` of chunk `k` is byte `k*N + j` of the payload. -/
theorem byteAt_payloadIn {n j : Nat} (payload : Bytes) (k : Nat) (hj : j < n) :
    byteAt (payloadIn n payload k) j = byteAt payload (k * n + j) := by
  simp [byteAt, payloadIn, List.getD_eq_getElem?_getD, hj]

theorem setChunks_length (n : Nat) (payload : Bytes) (ks : List Nat) (ms : List Bytes) :
    (ks.foldl (fun ms k => ms.set k (payloadIn n payload k)) ms).length = ms.length := by
  induction ks generalizing ms with
  | nil => rfl
  | cons k ks ih => simp [ih]

theorem setChunks_getD (n : Nat) (payload : Bytes) (K : Nat) (ms : List Bytes) (hK : K ≤ ms.length) (m : Nat) :
    ((List.range K).foldl (fun ms k => ms.set k (payloadIn n payload k)) ms).getD m [] =
      if m < K then payloadIn n payload m else ms.getD m [] := by
  induction K with
  | zero => simp
  | succ K ih =>
    rw [List.range_succ, List.foldl_append]
    simp only [List.foldl_cons, List.foldl_nil]
    by_cases h : m = K
    · subst h
      simp [List.getD_eq_getElem?_getD, setChunks_length, show m < ms.length by omega]
    · rw [List.getD_eq_getElem?_getD, List.getElem?_set_ne (Ne.symm h), ← List.getD_eq_getElem?_getD, ih (by omega)]
      by_cases h2 : m < K
      · simp [h2, show m < K + 1 by omega]
      · simp [h2, show ¬ m < K + 1 by omega]

/-- R131: after the data slots are written, slot `m` holds chunk `m` and every other member what it held. -/
theorem writeData_member {s : State} (hs : s.members.length = s.d) (payload : Bytes) (m : Nat) :
    (s.writeData payload).member m = if m < s.k then payloadIn s.n payload m else s.member m := by
  rw [State.writeData_eq]
  exact setChunks_getD _ _ _ _ (by rw [hs]; exact Nat.sub_le _ _) m

/-- R134: what SREAD emits is the data slots, one behind the other. -/
theorem readData_eq {s : State} (hs : s.members.length = s.d) : s.readData = (s.members.take s.k).flatten := by
  have hk : s.k ≤ s.members.length := by rw [hs]; exact Nat.sub_le _ _
  rw [State.readData, List.flatMap_def]
  congr 1
  refine List.ext_getElem (by simp [hk]) fun j h1 h2 => ?_
  have : j < s.members.length := by simp at h2; omega
  simp [State.member, List.getD_eq_getElem?_getD, this]

end Sys2Proof.Machine
end

