-- ==== Sys2Proof/Laws/Ops.lean ====
section
/-! SUPPORT. What the execution frame can do, said once: the lemmas a proof about a command cites instead of unfolding
`serve` and `transact`. -/

namespace Sys2Proof.Machine

/-- R174: a framed transaction runs its body on the state that has taken it. -/
theorem serve_of_serves {s : State} {t : Transaction} {rest : List HostEvent} {len : Nat}
    (h : Serves s t rest len) (body : Transaction → State → State) :
    serve s len body = .next (body t { s with inbox := rest }) := by
  simp [serve, h.1, h.2]

/-- What `serve` answers when it answers a next state. -/
theorem serve_next {s s' : State} {len : Nat} {body : Transaction → State → State}
    (h : serve s len body = .next s') :
    ∃ t rest, Serves s t rest len ∧ s' = body t { s with inbox := rest } := by
  unfold serve at h
  split at h
  · rename_i t rest heq
    split at h
    · exact ⟨t, rest, ⟨heq, ‹_›⟩, by injection h with h; exact h.symm⟩
    · cases h
  · cases h

/-- R174: while running, a command that violates nothing runs its body. -/
theorem transact_completes {i : Instr} {s : State} {t : Transaction} {rest : List HostEvent}
    {check : Option FaultCode} (body : Transaction → State → State)
    (h : Serves s t rest (payloadLength s.n i)) (hr : s.faulted = false) (hc : check = none) :
    transact i s check body = .next (body t { s with inbox := rest }) := by
  simp [transact, serve_of_serves h, hr, hc]

/-- R174: while running, a command that violates a precondition faults. -/
theorem transact_faults {i : Instr} {s : State} {t : Transaction} {rest : List HostEvent}
    {check : Option FaultCode} {code : FaultCode} (body : Transaction → State → State)
    (h : Serves s t rest (payloadLength s.n i)) (hr : s.faulted = false) (hc : check = some code) :
    transact i s check body = .next (({ s with inbox := rest } : State).raiseFault code t) := by
  simp [transact, serve_of_serves h, hr, hc]

/-- R175: while faulted, a command other than CSRR is refused. -/
theorem transact_refuses {i : Instr} {s : State} {t : Transaction} {rest : List HostEvent}
    {check : Option FaultCode} (body : Transaction → State → State)
    (h : Serves s t rest (payloadLength s.n i)) (hf : s.faulted = true) :
    transact i s check body = .next ({ s with inbox := rest } : State).refuse := by
  simp [transact, serve_of_serves h, hf]

/-- What `transact` answers when it answers a next state: a refusal while faulted, or a fault, or the body. -/
theorem transact_next {i : Instr} {s s' : State} {check : Option FaultCode} {body : Transaction → State → State}
    (h : transact i s check body = .next s') :
    ∃ t rest, Serves s t rest (payloadLength s.n i) ∧
      ((s.faulted = true ∧ s' = ({ s with inbox := rest } : State).refuse) ∨
       (s.faulted = false ∧ ∃ code, check = some code ∧
          s' = ({ s with inbox := rest } : State).raiseFault code t) ∨
       (s.faulted = false ∧ check = none ∧ s' = body t { s with inbox := rest })) := by
  obtain ⟨t, rest, hs, rfl⟩ := serve_next h
  refine ⟨t, rest, hs, ?_⟩
  cases hf : s.faulted with
  | true => simp [hf]
  | false => cases check <;> simp [hf]

/-- What becomes of an illegal command (R174, R175). -/
theorem rejectIllegal_eq (s : State) (t : Transaction) :
    (s.faulted = true ∧ s.rejectIllegal t = s.refuse) ∨
    (s.faulted = false ∧ s.rejectIllegal t = s.raiseFault .illegalCommand t) := by
  cases hf : s.faulted <;> simp [State.rejectIllegal, hf]

/-- R160: what CSRR answers when it answers a next state. -/
theorem execCsrr_next {csr : Byte} {s s' : State} (h : execCsrr csr s = .next s') :
    ∃ t rest, Serves s t rest (payloadLength s.n (.csrr csr)) ∧
      ((∃ value, s.csrRead csr = some value ∧ s' = ({ s with inbox := rest } : State).respondOk value []) ∨
       (s.csrRead csr = none ∧ s' = ({ s with inbox := rest } : State).rejectIllegal t)) := by
  obtain ⟨t, rest, hs, rfl⟩ := serve_next h
  refine ⟨t, rest, hs, ?_⟩
  have hc : ({ s with inbox := rest } : State).csrRead csr = s.csrRead csr := rfl
  rw [hc]
  cases s.csrRead csr <;> simp

/-- R28, R29: a control-register number names a register exactly when it is at most 0x06. -/
theorem csrRead_isSome (s : State) (csr : Byte) : (s.csrRead csr).isSome = true ↔ csrDefined csr := by
  unfold State.csrRead csrDefined
  split <;> simp_all; omega

/-- What `step` answers when it answers a next state: a wait, a reset, a command, or an illegal command. -/
theorem step_next {s s' : State} (h : step s = .next s') :
    (s.inbox = [] ∧ s' = s) ∨
    (∃ rest, s.inbox = .reset :: rest ∧ s' = s.hostReset rest) ∨
    (∃ t rest i, s.inbox = .submit t :: rest ∧ decode t.cmd t.arg = .command i ∧ exec i s = .next s') ∨
    (∃ t rest why, s.inbox = .submit t :: rest ∧ decode t.cmd t.arg = .illegal why ∧
      t.payload.length = lIn s.n t.cmd ∧ s' = ({ s with inbox := rest } : State).rejectIllegal t) := by
  unfold step at h
  split at h
  · exact .inl ⟨‹_›, by injection h with h; exact h.symm⟩
  · rename_i rest heq
    exact .inr (.inl ⟨rest, heq, by injection h with h; exact h.symm⟩)
  · rename_i t rest heq
    split at h
    · exact .inr (.inr (.inl ⟨t, rest, _, heq, ‹_›, h⟩))
    · obtain ⟨t', rest', hs, rfl⟩ := serve_next h
      obtain ⟨rfl, rfl⟩ : t = t' ∧ rest = rest' := by simpa [heq] using hs.1
      exact .inr (.inr (.inr ⟨t, rest, _, heq, ‹_›, hs.2, rfl⟩))

end Sys2Proof.Machine
end

