-- ==== Sys2Proof/Laws/Exec.lean ====
section
/-! SUPPORT. What every command does at the transaction interface, said once: it takes its transaction, gives one response
and leaves the build alone. -/

namespace Sys2Proof.Machine

/-- `s'` is `s` with one more response, the build and the queue of the Host unchanged. -/
abbrev Answers (s s' : State) : Prop :=
  s'.n = s.n ∧ s'.d = s.d ∧ s'.inbox = s.inbox ∧ ∃ r, s'.outbox = s.outbox ++ [r]

theorem refuse_answers (s : State) : Answers s s.refuse := ⟨rfl, rfl, rfl, _, rfl⟩

theorem raiseFault_answers (s : State) (c : FaultCode) (t : Transaction) : Answers s (s.raiseFault c t) :=
  ⟨rfl, rfl, rfl, _, rfl⟩

theorem respondOk_answers (s : State) (rval : Word) (payload : Bytes) : Answers s (s.respondOk rval payload) :=
  ⟨rfl, rfl, rfl, _, rfl⟩

theorem rejectIllegal_answers (s : State) (t : Transaction) : Answers s (s.rejectIllegal t) := by
  rcases rejectIllegal_eq s t with ⟨_, h⟩ | ⟨_, h⟩ <;> rw [h]
  · exact refuse_answers s
  · exact raiseFault_answers s _ t

/-! ### Every command but CSRR in one form -/

/-- The checks of a command, in the order its meaning makes them. -/
def precheck (s : State) : Instr → Option FaultCode
  | .vzero vd => checkMember s vd
  | .bget vs i => (checkMember s vs).or (checkBit s i)
  | .bset vd i _ => (checkMember s vd).or (checkBit s i)
  | .vxor vd va vb => (checkMember s vd).or ((checkMember s va).or (checkMember s vb))
  | .vcopy vd vs => (checkMember s vd).or (checkMember s vs)
  | .vload vd => checkMember s vd
  | .vstore vs => checkMember s vs
  | .swrite cnt => checkCount s cnt
  | .sread cnt => checkCount s cnt
  | .srestore idx => checkMember s idx
  | .csrr _ => none

/-- The register file a command that completes leaves. -/
def newMembers (s : State) (payload : Bytes) : Instr → List Bytes
  | .vzero vd => s.members.set vd.toNat (zeroVec s.n)
  | .bset vd i val => s.members.set vd.toNat (writeBit (s.member vd.toNat) i val)
  | .vxor vd va vb => s.members.set vd.toNat (xorVec (s.member va.toNat) (s.member vb.toNat))
  | .vcopy vd vs => s.members.set vd.toNat (s.member vs.toNat)
  | .vload vd => s.members.set vd.toNat (payloadIn s.n payload 0)
  | .swrite _ => (s.writeData payload).members.set s.p (s.writeData payload).parity
  | .srestore idx => s.members.set idx.toNat (if idx.toNat = s.p then s.parity else s.recon idx.toNat)
  | _ => s.members

/-- The response value word of a command that completes (R81). -/
def newValue (s : State) : Instr → Word
  | .bget vs i => (readBit (s.member vs.toNat) i).setWidth 32
  | .csrr csr => (s.csrRead csr).getD 0
  | _ => 0

/-- The output payload of a command that completes (R79). -/
def newOutput (s : State) : Instr → Bytes
  | .vstore vs => s.member vs.toNat
  | .sread _ => s.readData
  | _ => []

/-- What a command that completes leaves, all of it. -/
def effect (i : Instr) (t : Transaction) (s : State) : State :=
  { s with
    members := newMembers s t.payload i
    outbox := s.outbox ++ [{ resp := 0, rval := newValue s i, payload := newOutput s i }] }

/-- R174: every command but CSRR is its checks and its effect in the one frame. -/
theorem exec_eq_transact (i : Instr) (s : State) (h : ∀ csr, i ≠ .csrr csr) :
    exec i s = transact i s (precheck s i) (effect i) := by
  cases i with
  | csrr csr => exact absurd rfl (h csr)
  | swrite cnt =>
    show execSwrite cnt s = _
    unfold execSwrite
    congr 1
    funext t u
    simp only [effect, newMembers, newValue, newOutput, State.writeData_eq]
    rfl
  | _ => rfl

theorem effect_answers (i : Instr) (t : Transaction) (s : State) : Answers s (effect i t s) :=
  ⟨rfl, rfl, rfl, _, rfl⟩

/-- What a command answers when it answers a next state: refused while faulted, faulted by its first failing check, or
its effect. CSRR has no condition but its number (R160, R175). -/
theorem exec_next {i : Instr} {s s' : State} (h : exec i s = .next s') :
    ∃ t rest, Serves s t rest (payloadLength s.n i) ∧
      (((∀ csr, i ≠ .csrr csr) ∧ s.faulted = true ∧ s' = ({ s with inbox := rest } : State).refuse) ∨
       ((∀ csr, i ≠ .csrr csr) ∧ s.faulted = false ∧ ∃ code, precheck s i = some code ∧
          s' = ({ s with inbox := rest } : State).raiseFault code t) ∨
       ((∀ csr, i = .csrr csr → csrDefined csr) ∧ ((∀ csr, i ≠ .csrr csr) → s.faulted = false) ∧
          precheck s i = none ∧ s' = effect i t { s with inbox := rest }) ∨
       (∃ csr, i = .csrr csr ∧ ¬ csrDefined csr ∧ s' = ({ s with inbox := rest } : State).rejectIllegal t)) := by
  by_cases hi : ∃ csr, i = .csrr csr
  · obtain ⟨csr, rfl⟩ := hi
    obtain ⟨t, rest, hs, ⟨v, hv, rfl⟩ | ⟨hv, rfl⟩⟩ := execCsrr_next h
    · refine ⟨t, rest, hs, .inr (.inr (.inl ⟨?_, fun hne => absurd rfl (hne csr), rfl, ?_⟩))⟩
      · rintro csr' ⟨⟩
        exact (csrRead_isSome s csr).1 (by simp [hv])
      · have hv' : ({ s with inbox := rest } : State).csrRead csr = some v := hv
        simp [effect, newMembers, newValue, newOutput, hv', State.respondOk, State.respond, respWord, outcomeNumber]
    · refine ⟨t, rest, hs, .inr (.inr (.inr ⟨csr, rfl, fun hd => ?_, rfl⟩))⟩
      simpa [hv] using (csrRead_isSome s csr).2 hd
  · have hne : ∀ csr, i ≠ .csrr csr := fun csr hc => hi ⟨csr, hc⟩
    rw [exec_eq_transact i s hne] at h
    obtain ⟨t, rest, hs, ⟨hf, rfl⟩ | ⟨hf, c, hc, rfl⟩ | ⟨hf, hc, rfl⟩⟩ := transact_next h
    · exact ⟨t, rest, hs, .inl ⟨hne, hf, rfl⟩⟩
    · exact ⟨t, rest, hs, .inr (.inl ⟨hne, hf, c, hc, rfl⟩)⟩
    · exact ⟨t, rest, hs, .inr (.inr (.inl ⟨fun csr hc => absurd hc (hne csr), fun _ => hf, hc, rfl⟩))⟩

/-- R54: a command that answers a next state has taken its transaction and given one response. -/
theorem exec_answers {i : Instr} {s s' : State} (h : exec i s = .next s') :
    ∃ t rest, Serves s t rest (payloadLength s.n i) ∧ Answers { s with inbox := rest } s' := by
  obtain ⟨t, rest, hs, ⟨_, _, rfl⟩ | ⟨_, _, c, _, rfl⟩ | ⟨_, _, _, rfl⟩ | ⟨_, _, _, rfl⟩⟩ := exec_next h
  · exact ⟨t, rest, hs, refuse_answers _⟩
  · exact ⟨t, rest, hs, raiseFault_answers _ c t⟩
  · exact ⟨t, rest, hs, effect_answers i t _⟩
  · exact ⟨t, rest, hs, rejectIllegal_answers _ t⟩

/-! ### In the words of Safety.lean -/

/-- R172, R173: a fault taken, as a whole next state. -/
theorem raiseFault_taken (s : State) (rest : List HostEvent) (t : Transaction) (c : FaultCode) :
    ({ s with inbox := rest } : State).raiseFault c t = faultedWith s rest t (faultNumber c) := by
  cases c <;> rfl

/-- R175: a refusal, as a whole next state. -/
theorem refuse_taken (s : State) (rest : List HostEvent) :
    ({ s with inbox := rest } : State).refuse = refusedAnswer s rest := rfl

/-- R174: an effect, as a whole next state. -/
theorem effect_taken (i : Instr) (t : Transaction) (s : State) (rest : List HostEvent) :
    effect i t { s with inbox := rest } =
      completedWith s rest (newMembers s t.payload i) (newValue s i) (newOutput s i) := by
  cases i with
  | swrite cnt =>
    simp only [effect, newMembers, State.writeData_eq]
    rfl
  | _ => rfl

theorem checkMember_none {s : State} {m : Byte} (h : m.toNat < s.d) : checkMember s m = none := by
  simp [checkMember, h]

theorem checkCount_none {s : State} {cnt : Byte} (h : cnt.toNat = s.d - 1) : checkCount s cnt = none := by
  simp [checkCount, State.k, h]

theorem checkBit_none {s : State} {i : Word} (h : i.toNat < 8 * s.n) : checkBit s i = none := by
  simp [checkBit, State.nbits, h]

/-- R174: while running, a command other than CSRR that violates nothing completes with its effect. -/
theorem exec_completes {i : Instr} {s : State} {t : Transaction} {rest : List HostEvent}
    (hi : ∀ csr, i ≠ .csrr csr) (h : Serves s t rest (payloadLength s.n i)) (hr : Running s) (hc : precheck s i = none) :
    exec i s = .next (completedWith s rest (newMembers s t.payload i) (newValue s i) (newOutput s i)) := by
  rw [exec_eq_transact i s hi, transact_completes _ h hr hc, effect_taken]

/-- R77: what decodes to a CSRR names a defined register. -/
theorem decode_csrr_defined {cmd arg : Word} {csr : Byte} (h : decode cmd arg = .command (.csrr csr)) :
    csrDefined csr := by
  unfold decode requireZero at h
  simp only at h
  split at h <;> (try split_ifs at h) <;> simp_all

/-- Everything a step can do when it answers a next state (R174, R175, R200, R203). -/
theorem step_cases {s s' : State} (h : step s = .next s') :
    (s.inbox = [] ∧ s' = s) ∨
    (∃ rest, s.inbox = .reset :: rest ∧ s' = s.hostReset rest) ∨
    ∃ t rest, s.inbox = .submit t :: rest ∧
      ((s.faulted = true ∧ (∀ csr, decode t.cmd t.arg ≠ .command (.csrr csr)) ∧ s' = refusedAnswer s rest) ∨
       (s.faulted = false ∧ ∃ c, s' = faultedWith s rest t (faultNumber c)) ∨
       (∃ i, decode t.cmd t.arg = .command i ∧ (s.faulted = false ∨ ∃ csr, i = .csrr csr) ∧
         t.payload.length = payloadLength s.n i ∧ precheck s i = none ∧
         s' = completedWith s rest (newMembers s t.payload i) (newValue s i) (newOutput s i))) := by
  rcases step_next h with ⟨h1, rfl⟩ | ⟨r, h1, rfl⟩ | ⟨t, rest, i, h1, hd, he⟩ | ⟨t, rest, w, h1, hd, _, rfl⟩
  · exact .inl ⟨h1, rfl⟩
  · exact .inr (.inl ⟨r, h1, rfl⟩)
  · refine .inr (.inr ⟨t, rest, h1, ?_⟩)
    obtain ⟨t', rest', hs, hcases⟩ := exec_next he
    obtain ⟨rfl, rfl⟩ : t = t' ∧ rest = rest' := by simpa [h1] using hs.1
    obtain ⟨hne, hf, rfl⟩ | ⟨_, hf, c, _, rfl⟩ | ⟨_, hf, hc, rfl⟩ | ⟨csr, rfl, hn, rfl⟩ := hcases
    · exact .inl ⟨hf, fun csr hc => hne csr (by simpa [hd] using hc), rfl⟩
    · exact .inr (.inl ⟨hf, c, raiseFault_taken s rest t c⟩)
    · refine .inr (.inr ⟨i, hd, ?_, hs.2, hc, effect_taken i t s rest⟩)
      by_cases hi : ∃ csr, i = .csrr csr
      · exact .inr hi
      · exact .inl (hf fun csr hc => hi ⟨csr, hc⟩)
    · exact absurd (decode_csrr_defined hd) hn
  · refine .inr (.inr ⟨t, rest, h1, ?_⟩)
    rcases rejectIllegal_eq ({ s with inbox := rest } : State) t with ⟨hf, he⟩ | ⟨hf, he⟩ <;> rw [he]
    · exact .inl ⟨hf, by simp [hd], rfl⟩
    · exact .inr (.inl ⟨hf, _, raiseFault_taken s rest t _⟩)

end Sys2Proof.Machine
end

