-- ==== Sys2Proof/Laws/PerInstr.lean ====
section
/-! SUPPORT. Families of statements over the syntax, one lemma per constructor. PayloadFraming: the length R78 reads off the
command word of an encoded command is the length the command's own rule gives. -/

namespace Sys2Proof.Laws

/-- The input payload of a command, as its rule states it: N bytes for VLOAD (R110), `cnt * N` for SWRITE (R131), none for
every other command. -/
def rulePayload (n : Nat) : Instr → Nat
  | .vload _ => n
  | .swrite cnt => cnt.toNat * n
  | .vzero _ => 0
  | .bget _ _ => 0
  | .bset _ _ _ => 0
  | .vxor _ _ _ => 0
  | .vcopy _ _ => 0
  | .vstore _ => 0
  | .sread _ => 0
  | .srestore _ => 0
  | .csrr _ => 0

/-- R78: `L_in` of a command's encoding is the payload length of its rule. -/
def PayloadFraming.Statement (i : Instr) : Prop := ∀ n, Machine.lIn n (encode i).1 = rulePayload n i

theorem PayloadFraming.vzero (vd : Byte) : PayloadFraming.Statement (.vzero vd) :=
  fun n => Machine.payloadLength_vzero n vd

theorem PayloadFraming.bget (vs : Byte) (i : Word) : PayloadFraming.Statement (.bget vs i) :=
  fun n => Machine.payloadLength_bget n vs i

theorem PayloadFraming.bset (vd : Byte) (i : Word) (val : Bool) : PayloadFraming.Statement (.bset vd i val) :=
  fun n => Machine.payloadLength_bset n vd i val

theorem PayloadFraming.vxor (vd va vb : Byte) : PayloadFraming.Statement (.vxor vd va vb) :=
  fun n => Machine.payloadLength_vxor n vd va vb

theorem PayloadFraming.vcopy (vd vs : Byte) : PayloadFraming.Statement (.vcopy vd vs) :=
  fun n => Machine.payloadLength_vcopy n vd vs

theorem PayloadFraming.vload (vd : Byte) : PayloadFraming.Statement (.vload vd) :=
  fun n => Machine.payloadLength_vload n vd

theorem PayloadFraming.vstore (vs : Byte) : PayloadFraming.Statement (.vstore vs) :=
  fun n => Machine.payloadLength_vstore n vs

theorem PayloadFraming.swrite (cnt : Byte) : PayloadFraming.Statement (.swrite cnt) :=
  fun n => Machine.payloadLength_swrite n cnt

theorem PayloadFraming.sread (cnt : Byte) : PayloadFraming.Statement (.sread cnt) :=
  fun n => Machine.payloadLength_sread n cnt

theorem PayloadFraming.srestore (idx : Byte) : PayloadFraming.Statement (.srestore idx) :=
  fun n => Machine.payloadLength_srestore n idx

theorem PayloadFraming.csrr (csr : Byte) : PayloadFraming.Statement (.csrr csr) :=
  fun n => Machine.payloadLength_csrr n csr

end Sys2Proof.Laws
end

