-- ==== Sys2Proof/Tests/Slice0.lean ====
section
/-! SUPPORT. Small tests, their expected results taken from spec/95_test_vectors.md and from the encodings of 30_encoding.md, and for
every statement with hypotheses a witness: a concrete state and operands that meet them all. -/

namespace Sys2Proof.Tests

open Sys2Proof.Machine

/-! ### WellFormed: an ill-formed term for its one check (R77 item 4) -/

theorem test_wellFormed_csrr_highest_defined : (Instr.csrr 0x06).wellFormed = true := by decide

theorem test_wellFormed_csrr_first_reserved : (Instr.csrr 0x07).wellFormed = false := by decide

/-! ### Decoding: words written out from the patterns of R72 and the opcodes of R77 -/

theorem test_decode_vzero : decode 0b00000000000000000000001000000001 0 = .command (.vzero 2) := by decide

theorem test_decode_bget : decode 0b00000000000000000000000100000010 9 = .command (.bget 1 9) := by decide

theorem test_decode_bset : decode 0b00000000000000010000000100000011 9 = .command (.bset 1 9 true) := by decide

theorem test_decode_bset_clear : decode 0b00000000000000000000000100000011 9 = .command (.bset 1 9 false) := by decide

theorem test_decode_vxor : decode 0b00000001000000000000001100000100 0 = .command (.vxor 3 0 1) := by decide

theorem test_decode_vcopy : decode 0b00000000000000010000001000000101 0 = .command (.vcopy 2 1) := by decide

theorem test_decode_vload : decode 0b00000000000000000000001000000110 0 = .command (.vload 2) := by decide

theorem test_decode_vstore : decode 0b00000000000000001111111100000111 0 = .command (.vstore 255) := by decide

theorem test_decode_swrite : decode 0b00000000000000000000001100010000 0 = .command (.swrite 3) := by decide

theorem test_decode_sread : decode 0b00000000000000000000001100010001 0 = .command (.sread 3) := by decide

theorem test_decode_srestore : decode 0b00000000000000000000001100010010 0 = .command (.srestore 3) := by decide

theorem test_decode_csrr : decode 0b00000000000000000000011000100000 0 = .command (.csrr 6) := by decide

/-- 95_test_vectors.md 4.3 and 2.2 to 2.5: one illegal word for each item of R77. -/
theorem test_decode_illegal :
    decode 0x00000000 0 = .illegal .unlistedOpcode ∧ decode 0x00000013 0 = .illegal .unlistedOpcode ∧
    decode 0x01000001 0 = .illegal .nonzeroField ∧ decode 0x00010002 3 = .illegal .nonzeroField ∧
    decode 0x00020003 3 = .illegal .nonzeroField ∧ decode 0x01000105 0 = .illegal .nonzeroField ∧
    decode 0x01000304 1 = .illegal .nonzeroArg ∧ decode 0x00000720 0 = .illegal .reservedCsr := by decide

/-- R87: the encoder against the spec's words. -/
theorem test_encode_words :
    encode (.bset 1 9 true) = (0x00010103, 9) ∧ encode (.vxor 3 0 1) = (0x01000304, 0) ∧
    encode (.vcopy 2 1) = (0x00010205, 0) ∧ encode (.swrite 3) = (0x00000310, 0) ∧
    encode (.csrr 4) = (0x00000420, 0) := by decide

/-- R53: the table's bit numbering and the bytes of the header agree. -/
theorem test_decodeTableWord :
    decodeTableWord 32 0x01000304 = some (.vxor 3 0 1) ∧ decodeTableWord 32 0x00000720 = none := by decide

/-! ### One step on a small engine (D = 4, N = 4) -/

/-- The members CLEAN of 95_test_vectors.md section 3. -/
def clean : List Bytes :=
  [[0x01, 0x02, 0x03, 0x04], [0x05, 0x06, 0x07, 0x08], [0x09, 0x0a, 0x0b, 0x0c], [0x0d, 0x0e, 0x0f, 0x00]]

/-- An engine holding `ms` whose Host has submitted one transaction. -/
def engine (ms : List Bytes) (cmd arg : Word) (payload : Bytes) : State :=
  { State.reset with members := ms, inbox := [.submit ⟨cmd, arg, payload⟩] }

/-- The members after one step. -/
def membersAfter (s : State) : Option (List Bytes) :=
  match step s with
  | .next s' => some s'.members
  | _ => none

/-- The responses after one step. -/
def outboxAfter (s : State) : Option (List Response) :=
  match step s with
  | .next s' => some s'.outbox
  | _ => none

/-- STATUS, FCMD and FARG after one step. -/
def recordAfter (s : State) : Option (Word × Word × Word) :=
  match step s with
  | .next s' => some (s'.status, s'.fcmd, s'.farg)
  | _ => none

/-- 2.1 row 1. -/
theorem test_vzero : membersAfter (engine [[0, 0, 0, 0], [0, 0, 0, 0], [1, 2, 3, 4], [0, 0, 0, 0]] 0x00000201 0 []) =
    some [[0, 0, 0, 0], [0, 0, 0, 0], [0, 0, 0, 0], [0, 0, 0, 0]] := by decide

/-- 2.1 row 2. -/
theorem test_vzero_fault : recordAfter (engine clean 0x00000401 0 []) = some (0x21, 0x401, 0) := by decide

/-- 2.2 row 6: the highest bit. -/
theorem test_bget : outboxAfter (engine [[1, 0, 0, 0x80], [0, 2, 0, 0], [], []] 0x00000002 0x1f []) =
    some [⟨0, 1, []⟩] := by decide

/-- 2.2 row 8: no reduction modulo NBITS. -/
theorem test_bget_range : outboxAfter (engine clean 0x00000002 0xffffffff []) = some [⟨0x41, 0, []⟩] := by decide

/-- 2.3 row 1. -/
theorem test_bset : membersAfter (engine [[0, 0, 0, 0], [0, 0, 0, 0], [], []] 0x00010103 9 []) =
    some [[0, 0, 0, 0], [0, 2, 0, 0], [], []] := by decide

/-- 2.3 row 8: code 2 before code 4. -/
theorem test_bset_priority : recordAfter (engine clean 0x00010703 0x63 []) = some (0x21, 0x10703, 0x63) := by decide

/-- 2.4 row 3: `vd = vb`. -/
theorem test_vxor : membersAfter (engine [[1, 2, 3, 4], [5, 6, 7, 8], [], []] 0x01000104 0 []) =
    some [[1, 2, 3, 4], [4, 4, 4, 0x0c], [], []] := by decide

/-- 2.4 row 9: code 1 before code 2. -/
theorem test_vxor_priority : recordAfter (engine clean 0x01000904 1 []) = some (0x11, 0x01000904, 1) := by decide

/-- 2.5 row 1. -/
theorem test_vcopy : membersAfter (engine clean 0x00010305 0 []) =
    some [[1, 2, 3, 4], [5, 6, 7, 8], [9, 10, 11, 12], [5, 6, 7, 8]] := by decide

/-- 2.5 row 4. -/
theorem test_vcopy_fault : recordAfter (engine clean 0x00c80105 0 []) = some (0x21, 0x00c80105, 0) := by decide

/-- 2.6 row 1. -/
theorem test_vload : membersAfter (engine clean 0x00000206 0 [0xde, 0xad, 0xbe, 0xef]) =
    some [[1, 2, 3, 4], [5, 6, 7, 8], [0xde, 0xad, 0xbe, 0xef], [0x0d, 0x0e, 0x0f, 0]] := by decide

/-- 2.6 row 5: the payload of a faulting VLOAD is taken in and discarded. -/
theorem test_vload_fault : outboxAfter (engine clean 0x00000406 0 [0x11, 0x22, 0x33, 0x44]) =
    some [⟨0x21, 0, []⟩] := by decide

/-- 2.6 row 2 on CLEAN. -/
theorem test_vstore : outboxAfter (engine clean 0x00000307 0 []) = some [⟨0, 0, [0x0d, 0x0e, 0x0f, 0]⟩] := by decide

/-- 3.1 row 1, with the parity that C1 of 90_conflicts.md corrects. -/
theorem test_swrite :
    membersAfter (engine (List.replicate 4 [0xff, 0xff, 0xff, 0xff]) 0x00000310 0 [1, 2, 3, 4, 5, 6, 7, 8, 9, 10, 11, 12]) =
      some clean := by decide

/-- 3.1 row 3. -/
theorem test_swrite_count : recordAfter (engine clean 0x00000210 0 [1, 2, 3, 4, 5, 6, 7, 8]) =
    some (0x31, 0x210, 0) := by decide

/-- 3.2 row 4: verbatim, not repaired. -/
theorem test_sread : outboxAfter (engine [[1, 2, 3, 4], [0, 0, 0, 0], [9, 10, 11, 12], [0x0d, 0x0e, 0x0f, 0]] 0x00000311 0 []) =
    some [⟨0, 0, [1, 2, 3, 4, 0, 0, 0, 0, 9, 10, 11, 12]⟩] := by decide

/-- 3.3 row 9: two losses. -/
theorem test_srestore :
    membersAfter (engine [[0, 0, 0, 0], [0, 0, 0, 0], [9, 10, 11, 12], [0x0d, 0x0e, 0x0f, 0]] 0x00000012 0 []) =
      some [[4, 4, 4, 0x0c], [0, 0, 0, 0], [9, 10, 11, 12], [0x0d, 0x0e, 0x0f, 0]] := by decide

/-- 3.3 row 6: parity reconstruction. -/
theorem test_srestore_parity :
    membersAfter (engine [[1, 2, 3, 4], [5, 6, 7, 8], [9, 10, 11, 12], [0xff, 0xff, 0xff, 0xff]] 0x00000312 0 []) =
      some clean := by decide

/-- 4.2 row 3: CSRR while faulted. -/
theorem test_csrr_faulted : outboxAfter { engine clean 0x00000420 0 [] with status := 0x31, fcmd := 0x210 } =
    some [⟨0, 0x31, []⟩] := by decide

/-- 4.2 row 6: an illegal CSRR while faulted is refused, and records nothing. -/
theorem test_csrr_illegal_faulted :
    outboxAfter { engine clean 0x00000720 0 [] with status := 0x31, fcmd := 0x210 } = some [⟨0x32, 0, []⟩] ∧
    recordAfter { engine clean 0x00000720 0 [] with status := 0x31, fcmd := 0x210 } = some (0x31, 0x210, 0) := by decide

/-- 4.2 row 9, program 4 step 8: reset. -/
theorem test_reset : membersAfter { State.reset with members := clean, status := 0x31, inbox := [.reset] } =
    some [[0, 0, 0, 0], [0, 0, 0, 0], [0, 0, 0, 0], [0, 0, 0, 0]] := by decide

/-- withFetchWord makes the next step run the word: SWRITE with its zero payload. -/
theorem test_withFetchWord : outboxAfter (State.reset.withFetchWord 32 0x00000310) = some [⟨0, 0, []⟩] := by decide

/-- R78: two transactions on a byte stream, the second an illegal VLOAD, which still carries its N bytes. -/
theorem test_parseStream :
    parseStream 4 9 ([0x01, 0x02, 0, 0, 0, 0, 0, 0] ++ [0x06, 0x02, 0x01, 0, 0, 0, 0, 0, 0xaa, 0xbb, 0xcc, 0xdd]) =
      ([⟨0x201, 0, []⟩, ⟨0x10206, 0, [0xaa, 0xbb, 0xcc, 0xdd]⟩], []) := by decide

/-- R85: the assembler refuses v256, accepts v255, skips comments, and checks the payload length. -/
theorem test_assembler :
    assembleLine 4 4 "vzero v256".toList = .refused ∧
    assembleLine 4 4 "  vstore v255 ; out of range".toList = .command ⟨0x0000ff07, 0, []⟩ ∧
    assembleLine 4 4 "; nothing".toList = .blank ∧
    assembleLine 4 4 ("vload v1, ".toList ++ braced "01 02 03") = .refused ∧
    assembleLine 4 2 ("swritek ".toList ++ braced "a1 b2 c3 d4") = .command ⟨0x110, 0, [0xa1, 0xb2, 0xc3, 0xd4]⟩ := by
  decide

/-! ### Witnesses: the hypotheses of the statements can be met -/

/-- A transaction with no payload. -/
def tx (cmd arg : Word) : Transaction := ⟨cmd, arg, []⟩

/-- An engine holding CLEAN with `q` submitted. -/
def host (q : List HostEvent) : State := { State.reset with members := clean, inbox := q }

/-- The same engine, faulted with code 4 by `bget v0, 32`. -/
def faultedHost (q : List HostEvent) : State :=
  { host q with status := 0x41, fcmd := 0x00000002, farg := 0x20 }

/-- The twelve data bytes of 95_test_vectors.md section 3. -/
def data : Bytes := [1, 2, 3, 4, 5, 6, 7, 8, 9, 10, 11, 12]

theorem witness_DecodeEncodeRoundTrip : ∃ i : Instr, i.wellFormed = true := ⟨.csrr 6, by decide⟩

theorem witness_EncodeDecodeRoundTrip : ∃ cmd arg i, decode cmd arg = .command i :=
  ⟨0xff000304, 0, .vxor 3 0 255, by decide⟩

theorem witness_ByteStreamFramesTransactions :
    ∃ (n : Nat) (ts : List Transaction), ts ≠ [] ∧ ∀ t ∈ ts, t.payload.length = lIn n t.cmd :=
  ⟨4, [tx 0 0, ⟨0x00010206, 0, [1, 2, 3, 4]⟩, ⟨0x210, 0, [1, 2, 3, 4, 5, 6, 7, 8]⟩], by decide⟩

/-- The smallest and the largest stripe, with operands that both sides accept. -/
theorem witness_PseudoLinesExpand :
    (∃ (d : Nat) (a b : List Char), Config.LegalD d ∧ d = 2 ∧ isOperandText a = true ∧ isOperandText b = true ∧
      assembleLine 4 d (lineText "vxora" [a, b]) = .command ⟨0x01000004, 0, []⟩) ∧
    (∃ (d : Nat) (a b : List Char), Config.LegalD d ∧ d = 256 ∧ isOperandText a = true ∧ isOperandText b = true ∧
      assembleLine 4 d (lineText "bclr" [a, b]) = .command ⟨0x0000ff03, 31, []⟩) :=
  ⟨⟨2, ['v', '0'], ['v', 'p'], by decide⟩, ⟨256, ['v', 'p'], ['3', '1'], by decide⟩⟩

theorem witness_StripePseudoLinesEncode : Config.LegalD 2 ∧ Config.LegalD 256 := by decide

theorem witness_StepRunsDecodedCommand :
    ∃ (s : State) (t : Transaction) (rest : List HostEvent) (i : Instr),
      s.inbox = .submit t :: rest ∧ decode t.cmd t.arg = .command i :=
  ⟨host [.submit (tx 0x401 0)], tx 0x401 0, [], .vzero 4, by decide⟩

/-- Faulted, a legal CSRR at its highest number. -/
theorem witness_TransactionFrame_faulted_csrr :
    ∃ (s : State) (t : Transaction) (rest : List HostEvent) (csr : Byte),
      Serves s t rest (lIn s.n t.cmd) ∧ ¬ Running s ∧ decode t.cmd t.arg = .command (.csrr csr) :=
  ⟨faultedHost [.submit (tx 0x620 0)], tx 0x620 0, [], 6, by decide⟩

/-- Faulted, an illegal CSRR at the first reserved number. -/
theorem witness_TransactionFrame_faulted_other :
    ∃ (s : State) (t : Transaction) (rest : List HostEvent),
      Serves s t rest (lIn s.n t.cmd) ∧ ¬ Running s ∧ decode t.cmd t.arg = .illegal .reservedCsr :=
  ⟨faultedHost [.submit (tx 0x720 0)], tx 0x720 0, [], by decide⟩

/-- Running, the all-zero words. -/
theorem witness_TransactionFrame_illegal :
    ∃ (s : State) (t : Transaction) (rest : List HostEvent) (why : IllegalReason),
      Serves s t rest (lIn s.n t.cmd) ∧ Running s ∧ decode t.cmd t.arg = .illegal why :=
  ⟨host [.submit (tx 0 0)], tx 0 0, [], .unlistedOpcode, by decide⟩

/-- Running, each code at the boundary of its range: member D, count K + 1, bit NBITS. -/
theorem witness_TransactionFrame_violations :
    (∃ (s : State) (t : Transaction) (rest : List HostEvent) (i : Instr), Serves s t rest (lIn s.n t.cmd) ∧ Running s ∧
      decode t.cmd t.arg = .command i ∧ violation s.n s.d i = some 2) ∧
    (∃ (s : State) (t : Transaction) (rest : List HostEvent) (i : Instr), Serves s t rest (lIn s.n t.cmd) ∧ Running s ∧
      decode t.cmd t.arg = .command i ∧ violation s.n s.d i = some 3) ∧
    (∃ (s : State) (t : Transaction) (rest : List HostEvent) (i : Instr), Serves s t rest (lIn s.n t.cmd) ∧ Running s ∧
      decode t.cmd t.arg = .command i ∧ violation s.n s.d i = some 4) :=
  ⟨⟨host [.submit (tx 0x402 32)], tx 0x402 32, [], .bget 4 32, by decide⟩,
   ⟨host [.submit (tx 0x411 0)], tx 0x411 0, [], .sread 4, by decide⟩,
   ⟨host [.submit (tx 0x302 32)], tx 0x302 32, [], .bget 3 32, by decide⟩⟩

/-- Running, the last member and the last bit. -/
theorem witness_TransactionFrame_completes :
    ∃ (s : State) (t : Transaction) (rest : List HostEvent) (i : Instr), Serves s t rest (lIn s.n t.cmd) ∧ Running s ∧
      decode t.cmd t.arg = .command i ∧ violation s.n s.d i = none :=
  ⟨host [.submit (tx 0x10303 31)], tx 0x10303 31, [], .bset 3 31 true, by decide⟩

theorem witness_MisframedTransactionRefused :
    ∃ (s : State) (t : Transaction) (rest : List HostEvent),
      s.inbox = .submit t :: rest ∧ t.payload.length ≠ lIn s.n t.cmd :=
  ⟨host [.submit ⟨0x206, 0, [1, 2, 3]⟩], ⟨0x206, 0, [1, 2, 3]⟩, [], by decide⟩

theorem witness_EmptyInboxWaits : ∃ s : State, s.inbox = [] := ⟨State.reset, by decide⟩

theorem witness_OneResponsePerTransaction :
    ∃ (s s' : State) (t : Transaction) (rest : List HostEvent), s.inbox = .submit t :: rest ∧ step s = .next s' :=
  ⟨host [.submit (tx 0x420 0), .reset], completedWith (host []) [.reset] clean 0 [], tx 0x420 0, [.reset],
    by decide, rfl⟩

theorem witness_EveryTransactionIsAnswered : ∃ s : State, FramedInbox s ∧ s.inbox.length = 3 :=
  ⟨host [.submit (tx 0 0), .reset, .submit ⟨0x206, 0, [1, 2, 3, 4]⟩], by decide⟩

/-- The boundary builds: the smallest and the largest. -/
theorem witness_ResetIsLegal :
    (Config.LegalN 1 ∧ Config.LegalD 2) ∧ Config.LegalN (2 ^ 29) ∧ Config.LegalD 256 := by decide

theorem witness_StepKeepsLegal : ∃ s s' : State, Legal s ∧ step s = .next s' :=
  ⟨host [.submit (tx 0x401 0)], faultedWith (host []) [] (tx 0x401 0) 2, by decide, rfl⟩

theorem witness_ResetAloneEndsFault :
    (∃ (s : State) (rest : List HostEvent), s.inbox = .reset :: rest) ∧
    ∃ s s' : State, ¬ Running s ∧ step s = .next s' ∧ Running s' :=
  ⟨⟨faultedHost [.reset], [], by decide⟩, faultedHost [.reset], State.reset, by decide, rfl, by decide⟩

theorem witness_FirstFaultSurvivesUntilReset :
    ∃ s s' : State, ¬ Running s ∧ (∀ rest, s.inbox ≠ .reset :: rest) ∧ step s = .next s' :=
  ⟨faultedHost [.submit (tx 0x001 0)], refusedAnswer (faultedHost []) [], by decide, by simp [faultedHost, host], rfl⟩

/-- A running engine that faults; one that completes keeps its record. -/
theorem witness_FaultRecordChangesOnlyAtFirstFault :
    ∃ s s' : State, (∀ rest, s.inbox ≠ .reset :: rest) ∧ step s = .next s' ∧ s'.status ≠ s.status :=
  ⟨host [.submit (tx 0x401 0)], faultedWith (host []) [] (tx 0x401 0) 2, by simp [host], rfl, by decide⟩

theorem witness_ConstantRegistersNeverChange :
    ∃ (s s' : State) (csr : Byte), csr.toNat ≤ 3 ∧ step s = .next s' :=
  ⟨host [.reset], State.reset, 3, by decide, rfl⟩

theorem witness_ExecWritesOnlyItsMember :
    ∃ (i : Instr) (s s' : State) (m : Nat), exec i s = .next s' ∧ mayWrite i m = false :=
  ⟨.vzero 3, host [.submit (tx 0x301 0)],
    completedWith (host []) [] [[1, 2, 3, 4], [5, 6, 7, 8], [9, 10, 11, 12], [0, 0, 0, 0]] 0 [], 2, rfl, by decide⟩

/-- OK, FAULT and REFUSED. -/
theorem witness_ResponseWordFields :
    (∃ (s s' : State) (t : Transaction) (rest : List HostEvent) (r : Response), s.inbox = .submit t :: rest ∧
      step s = .next s' ∧ s'.outbox = s.outbox ++ [r] ∧ r.resp = 0) ∧
    (∃ (s s' : State) (t : Transaction) (rest : List HostEvent) (r : Response), s.inbox = .submit t :: rest ∧
      step s = .next s' ∧ s'.outbox = s.outbox ++ [r] ∧ r.resp = 0x21) ∧
    (∃ (s s' : State) (t : Transaction) (rest : List HostEvent) (r : Response), s.inbox = .submit t :: rest ∧
      step s = .next s' ∧ s'.outbox = s.outbox ++ [r] ∧ r.resp = 0x42) :=
  ⟨⟨host [.submit (tx 0x420 0)], completedWith (host []) [] clean 0 [], tx 0x420 0, [], ⟨0, 0, []⟩, by decide, rfl,
    by decide, by decide⟩,
   ⟨host [.submit (tx 0x401 0)], faultedWith (host []) [] (tx 0x401 0) 2, tx 0x401 0, [], ⟨0x21, 0, []⟩, by decide, rfl,
    by decide, by decide⟩,
   ⟨faultedHost [.submit (tx 1 0)], refusedAnswer (faultedHost []) [], tx 1 0, [], ⟨0x42, 0, []⟩, by decide, rfl,
    by decide, by decide⟩⟩

/-- A VSTORE, a SREAD and another command, each completed. -/
theorem witness_OutputPayloadLength :
    (∃ (s s' : State) (t : Transaction) (rest : List HostEvent) (r : Response) (vs : Byte), Legal s ∧
      s.inbox = .submit t :: rest ∧ step s = .next s' ∧ s'.outbox = s.outbox ++ [r] ∧ r.resp = 0 ∧
      decode t.cmd t.arg = .command (.vstore vs)) ∧
    (∃ (s s' : State) (t : Transaction) (rest : List HostEvent) (r : Response) (cnt : Byte), Legal s ∧
      s.inbox = .submit t :: rest ∧ step s = .next s' ∧ s'.outbox = s.outbox ++ [r] ∧ r.resp = 0 ∧
      decode t.cmd t.arg = .command (.sread cnt)) ∧
    (∃ (s s' : State) (t : Transaction) (rest : List HostEvent) (r : Response), Legal s ∧
      s.inbox = .submit t :: rest ∧ step s = .next s' ∧ s'.outbox = s.outbox ++ [r] ∧ r.resp ≠ 0) :=
  ⟨⟨host [.submit (tx 0x307 0)], completedWith (host []) [] clean 0 [13, 14, 15, 0], tx 0x307 0, [],
    ⟨0, 0, [13, 14, 15, 0]⟩, 3, by decide, by decide, rfl, by decide, by decide, by decide⟩,
   ⟨host [.submit (tx 0x311 0)], completedWith (host []) [] clean 0 data, tx 0x311 0, [],
    ⟨0, 0, data⟩, 3, by decide, by decide, rfl, by decide, by decide, by decide⟩,
   ⟨host [.submit (tx 0x411 0)], faultedWith (host []) [] (tx 0x411 0) 3, tx 0x411 0, [],
    ⟨0x31, 0, []⟩, by decide, by decide, rfl, by decide, by decide⟩⟩

/-- A BGET, a CSRR and another command. -/
theorem witness_ResponseValueWord :
    (∃ (s s' : State) (t : Transaction) (rest : List HostEvent) (r : Response) (vs : Byte) (i : Word),
      s.inbox = .submit t :: rest ∧ step s = .next s' ∧ s'.outbox = s.outbox ++ [r] ∧ r.resp = 0 ∧
      decode t.cmd t.arg = .command (.bget vs i)) ∧
    (∃ (s s' : State) (t : Transaction) (rest : List HostEvent) (r : Response) (csr : Byte),
      s.inbox = .submit t :: rest ∧ step s = .next s' ∧ s'.outbox = s.outbox ++ [r] ∧ r.resp = 0 ∧
      decode t.cmd t.arg = .command (.csrr csr)) ∧
    (∃ (s s' : State) (t : Transaction) (rest : List HostEvent) (r : Response),
      s.inbox = .submit t :: rest ∧ step s = .next s' ∧ s'.outbox = s.outbox ++ [r] ∧ r.resp ≠ 0) :=
  ⟨⟨host [.submit (tx 0x002 0)], completedWith (host []) [] clean 1 [], tx 0x002 0, [],
    ⟨0, 1, []⟩, 0, 0, by decide, rfl, by decide, by decide, by decide⟩,
   ⟨host [.submit (tx 0x220 0)], completedWith (host []) [] clean 4 [], tx 0x220 0, [],
    ⟨0, 4, []⟩, 2, by decide, rfl, by decide, by decide, by decide⟩,
   ⟨host [.submit (tx 0x402 0)], faultedWith (host []) [] (tx 0x402 0) 2, tx 0x402 0, [],
    ⟨0x21, 0, []⟩, by decide, rfl, by decide, by decide⟩⟩

/-- The last member that exists: for VzeroResult, VstoreResult, SrestoreXorsTheOthers (parity index), SrestoreNeverReadsItsTarget and
ParityIsRestored. -/
theorem witness_one_member_results :
    ∃ (s : State) (t : Transaction) (rest : List HostEvent) (v : Byte),
      Legal s ∧ Clean s ∧ Serves s t rest 0 ∧ Running s ∧ v.toNat < s.d ∧ v.toNat = s.d - 1 :=
  ⟨host [.submit (tx 0x312 0)], tx 0x312 0, [], 3, by decide⟩

/-- The last data index, for SrestoreXorsTheOthers. -/
theorem witness_SrestoreXorsTheOthers_data :
    ∃ (s : State) (t : Transaction) (rest : List HostEvent) (idx : Byte),
      Legal s ∧ Serves s t rest 0 ∧ Running s ∧ idx.toNat < s.d - 1 :=
  ⟨host [.submit (tx 0x212 0)], tx 0x212 0, [], 2, by decide⟩

/-- The last bit of the last member, for BgetResult and BsetResult. -/
theorem witness_bit_results :
    ∃ (s : State) (t : Transaction) (rest : List HostEvent) (v : Byte) (i : Word),
      Legal s ∧ Serves s t rest 0 ∧ Running s ∧ v.toNat < s.d ∧ i.toNat < 8 * s.n ∧ v.toNat + 1 = s.d ∧ i.toNat + 1 = 8 * s.n :=
  ⟨host [.submit (tx 0x302 31)], tx 0x302 31, [], 3, 31, by decide⟩

/-- Members that exist, for VxorResult, VxorSameSourcesZeroes and VcopyResult. -/
theorem witness_many_member_results :
    ∃ (s : State) (t : Transaction) (rest : List HostEvent) (vd va vb : Byte),
      Legal s ∧ Serves s t rest 0 ∧ Running s ∧ vd.toNat < s.d ∧ va.toNat < s.d ∧ vb.toNat < s.d :=
  ⟨host [.submit (tx 0x01000304 0)], tx 0x01000304 0, [], 3, 0, 1, by decide⟩

theorem witness_VloadResult :
    ∃ (s : State) (t : Transaction) (rest : List HostEvent) (vd : Byte),
      Serves s t rest s.n ∧ Running s ∧ vd.toNat < s.d :=
  ⟨host [.submit ⟨0x306, 0, [1, 2, 3, 4]⟩], ⟨0x306, 0, [1, 2, 3, 4]⟩, [], 3, by decide⟩

/-- For SwriteResult, SwriteLeavesClean and SwriteNeverReadsOldMembers. -/
theorem witness_swrite_results :
    ∃ (s : State) (t : Transaction) (rest : List HostEvent) (cnt : Byte) (old : List Bytes),
      Legal s ∧ Legal { s with members := old } ∧ Serves s t rest (cnt.toNat * s.n) ∧ Running s ∧ cnt.toNat = s.d - 1 :=
  ⟨host [.submit ⟨0x310, 0, data⟩], ⟨0x310, 0, data⟩, [], 3, List.replicate 4 [0xff, 0xff, 0xff, 0xff], by decide⟩

theorem witness_SreadResult :
    ∃ (s : State) (t : Transaction) (rest : List HostEvent) (cnt : Byte),
      Legal s ∧ Serves s t rest 0 ∧ Running s ∧ cnt.toNat = s.d - 1 :=
  ⟨host [.submit (tx 0x311 0)], tx 0x311 0, [], 3, by decide⟩

/-- The last defined register, in a faulted engine. -/
theorem witness_CsrrResult :
    ∃ (s : State) (t : Transaction) (rest : List HostEvent) (csr : Byte),
      Serves s t rest 0 ∧ csr.toNat ≤ 6 ∧ csr.toNat = 6 ∧ ¬ Running s :=
  ⟨faultedHost [.submit (tx 0x620 0)], tx 0x620 0, [], 6, by decide⟩

/-- The first reserved number, running and faulted. -/
theorem witness_CsrrReservedNumber :
    (∃ (s : State) (t : Transaction) (rest : List HostEvent) (csr : Byte),
      Serves s t rest 0 ∧ 6 < csr.toNat ∧ Running s) ∧
    (∃ (s : State) (t : Transaction) (rest : List HostEvent) (csr : Byte),
      Serves s t rest 0 ∧ 6 < csr.toNat ∧ ¬ Running s) :=
  ⟨⟨host [.submit (tx 0x720 0)], tx 0x720 0, [], 7, by decide⟩,
   ⟨faultedHost [.submit (tx 0x720 0)], tx 0x720 0, [], 7, by decide⟩⟩

theorem witness_BitRoundTrip :
    ∃ (s : State) (t u : Transaction) (rest : List HostEvent) (vd : Byte) (i : Word),
      Legal s ∧ s.inbox = .submit t :: .submit u :: rest ∧ t.payload = [] ∧ u.payload = [] ∧
      Running s ∧ vd.toNat < s.d ∧ i.toNat < 8 * s.n :=
  ⟨host [.submit (tx 0x10303 31), .submit (tx 0x302 31)], tx 0x10303 31, tx 0x302 31, [], 3, 31, by decide⟩

theorem witness_XorAlgebra :
    ∃ (n : Nat) (x y z : Bytes), x.length = n ∧ y.length = n ∧ z.length = n :=
  ⟨4, [1, 2, 3, 4], [5, 6, 7, 8], [0xff, 0, 0xaa, 0x55], by decide⟩

/-- The two clauses: a VLOAD and a BSET, each before a VSTORE. -/
theorem witness_RawViewRoundTrip :
    (∃ (s : State) (t u : Transaction) (rest : List HostEvent) (vd : Byte),
      Legal s ∧ s.inbox = .submit t :: .submit u :: rest ∧ u.payload = [] ∧ Running s ∧ vd.toNat < s.d ∧
      t.payload.length = s.n) ∧
    (∃ (s : State) (t u : Transaction) (rest : List HostEvent) (vd : Byte) (i : Word),
      Legal s ∧ s.inbox = .submit t :: .submit u :: rest ∧ u.payload = [] ∧ Running s ∧ vd.toNat < s.d ∧
      t.payload = [] ∧ i.toNat < 8 * s.n) :=
  ⟨⟨host [.submit ⟨0x306, 0, [1, 2, 3, 4]⟩, .submit (tx 0x307 0)], ⟨0x306, 0, [1, 2, 3, 4]⟩, tx 0x307 0, [], 3, by decide⟩,
   ⟨host [.submit (tx 0x10303 31), .submit (tx 0x307 0)], tx 0x10303 31, tx 0x307 0, [], 3, 31, by decide⟩⟩

/-- Two states with the same data slots and another parity slot. -/
theorem witness_ParityReadsOnlyData :
    ∃ s u : State, Legal s ∧ u.n = s.n ∧ u.d = s.d ∧ (∀ k < s.d - 1, u.member k = s.member k) ∧
      u.member 3 ≠ s.member 3 :=
  ⟨host [], (host []).setMember 3 [0xff, 0xff, 0xff, 0xff], by decide⟩

/-- For SrestoreNeverReadsItsTarget and SingleLossIsRestored, whose stripe is clean. -/
theorem witness_SingleLossIsRestored :
    ∃ (s : State) (t : Transaction) (rest : List HostEvent) (idx : Byte) (v : Bytes),
      Legal s ∧ Clean s ∧ v.length = s.n ∧ Serves s t rest 0 ∧ Running s ∧ idx.toNat < s.d :=
  ⟨host [.submit (tx 0x012 0)], tx 0x012 0, [], 0, [0xff, 0xff, 0xff, 0xff], by decide⟩

/-- The smallest stripe. -/
theorem witness_TwoMemberStripeMirrors :
    ∃ (s : State) (t : Transaction) (rest : List HostEvent),
      Legal s ∧ s.d = 2 ∧ Serves s t rest s.n ∧ Running s :=
  ⟨{ State.resetFor 1 2 with inbox := [.submit ⟨0x110, 0, [0xa1]⟩] }, ⟨0x110, 0, [0xa1]⟩, [], by decide⟩

theorem witness_SwriteThenSread :
    ∃ (s : State) (t u : Transaction) (rest : List HostEvent) (cnt : Byte),
      Legal s ∧ s.inbox = .submit t :: .submit u :: rest ∧ t.payload.length = cnt.toNat * s.n ∧ u.payload = [] ∧
      Running s ∧ cnt.toNat = s.d - 1 :=
  ⟨host [.submit ⟨0x310, 0, data⟩, .submit (tx 0x311 0)], ⟨0x310, 0, data⟩, tx 0x311 0, [], 3, by decide⟩

theorem witness_WriteLoseRestoreRead :
    ∃ (s : State) (input garbage : Bytes) (idx cnt : Byte) (rest : List HostEvent),
      Legal s ∧ Running s ∧ idx.toNat < s.d ∧ cnt.toNat = s.d - 1 ∧
      input.length = cnt.toNat * s.n ∧ garbage.length = s.n ∧
      s.inbox =
        .submit ⟨(encode (.swrite cnt)).1, 0, input⟩ :: .submit ⟨(encode (.vload idx)).1, 0, garbage⟩ ::
        .submit ⟨(encode (.srestore idx)).1, 0, []⟩ :: .submit ⟨(encode (.sread cnt)).1, 0, []⟩ :: rest :=
  ⟨host [.submit ⟨0x310, 0, data⟩, .submit ⟨0x306, 0, [9, 9, 9, 9]⟩, .submit (tx 0x312 0), .submit (tx 0x311 0)],
    data, [9, 9, 9, 9], 3, 3, [], by decide⟩

/-- For each of the four read-only commands. -/
theorem witness_ReadsHaveNoSideEffect :
    ∀ i ∈ ([.bget 3 31, .vstore 3, .sread 3, .csrr 6] : List Instr),
      ∃ (s s₁ : State) (t u : Transaction) (rest : List HostEvent) (r : Response),
        s.inbox = .submit t :: .submit u :: rest ∧ u.payload = [] ∧
        exec i s = .next s₁ ∧ s₁.outbox = s.outbox ++ [r] ∧ r.resp = 0 := by
  intro i hi
  have go (rval : Word) (out : Bytes) (h : exec i (host [.submit (tx 0x302 31), .submit (tx 0x302 31)]) =
      .next (completedWith (host []) [.submit (tx 0x302 31)] clean rval out)) :
      ∃ (s s₁ : State) (t u : Transaction) (rest : List HostEvent) (r : Response),
        s.inbox = .submit t :: .submit u :: rest ∧ u.payload = [] ∧
        exec i s = .next s₁ ∧ s₁.outbox = s.outbox ++ [r] ∧ r.resp = 0 :=
    ⟨_, _, tx 0x302 31, tx 0x302 31, [], ⟨0, rval, out⟩, rfl, rfl, h, rfl, rfl⟩
  simp only [List.mem_cons, List.not_mem_nil, or_false] at hi
  rcases hi with rfl | rfl | rfl | rfl
  · exact go 0 [] rfl
  · exact go 0 [0x0d, 0x0e, 0x0f, 0] rfl
  · exact go 0 data rfl
  · exact go 0 [] rfl

/-- For a SWRITE, the command of the list that writes the most. -/
theorem witness_WritesAreIdempotent :
    ∃ (i : Instr) (s s₁ : State) (t : Transaction) (rest : List HostEvent),
      (∃ cnt, i = .swrite cnt) ∧ Legal s ∧ s.inbox = .submit t :: .submit t :: rest ∧ Running s ∧
      exec i s = .next s₁ ∧ Running s₁ :=
  ⟨.swrite 3, host [.submit ⟨0x310, 0, data⟩, .submit ⟨0x310, 0, data⟩],
    completedWith (host []) [.submit ⟨0x310, 0, data⟩] clean 0 [], ⟨0x310, 0, data⟩, [],
    ⟨3, rfl⟩, by decide, by decide, by decide, rfl, by decide⟩

end Sys2Proof.Tests
end

/-! PROOFS. Every transaction of the Host is served in one frame, whatever it decodes to: refused when its payload is not
`L_in(CMD)` bytes (00_scope.md R19, 30_encoding.md R78), answered in one step when it is (R54, R210). -/

namespace Sys2Proof.Machine

/-! ### The payload length of a decoded command (R78) -/

theorem requireZero_eq_command {fields arg : Bool} {i j : Instr} :
    requireZero fields arg i = .command j ↔ fields = true ∧ arg = true ∧ i = j := by
  cases fields <;> cases arg <;> simp [requireZero]

/-- R78: only the opcodes of VLOAD and SWRITE ask for a payload. -/
theorem lIn_of_fieldOp_toNat (n : Nat) {cmd : Word} {op : Nat} (h : (fieldOp cmd).toNat = op) :
    lIn n cmd = if op = 0x06 then n else if op = 0x10 then (fieldA cmd).toNat * n else 0 := by
  simp [lIn, ← h, ← BitVec.toNat_inj]

/-- R78: a command word that decodes to `i` asks for the payload that `i` asks for. -/
theorem payloadLength_of_decode (n : Nat) {cmd arg : Word} {i : Instr} (h : decode cmd arg = .command i) :
    payloadLength n i = lIn n cmd := by
  unfold decode at h
  simp only at h
  split at h
  case h_11 hop =>
    split_ifs at h
    obtain ⟨-, -, rfl⟩ := requireZero_eq_command.1 h
    simp [lIn_of_fieldOp_toNat n hop]
  case h_12 => cases h
  all_goals
    rename_i hop
    obtain ⟨-, -, rfl⟩ := requireZero_eq_command.1 h
    simp [lIn_of_fieldOp_toNat n hop]

/-! ### One frame for every transaction -/

/-- R19: the frame refuses a payload of the wrong length. -/
theorem serve_misframed {s : State} {t : Transaction} {rest : List HostEvent} {len : Nat}
    (hin : s.inbox = .submit t :: rest) (hlen : t.payload.length ≠ len) (body : Transaction → State → State) :
    serve s len body = .refused .misframedPayload := by
  simp [serve, hin, hlen]

/-- R174: every command, CSRR too, runs in the frame with its own payload length. -/
theorem exec_eq_serve (i : Instr) (s : State) : ∃ body, exec i s = serve s (payloadLength s.n i) body := by
  by_cases hi : ∃ csr, i = .csrr csr
  · obtain ⟨csr, rfl⟩ := hi
    show ∃ body, execCsrr csr s = _
    unfold execCsrr
    exact ⟨_, rfl⟩
  · rw [exec_eq_transact i s fun csr hc => hi ⟨csr, hc⟩]
    exact ⟨_, rfl⟩

/-- R78, R174: a step on a transaction, legal or not, runs in the frame with the length its command word gives. -/
theorem step_eq_serve {s : State} {t : Transaction} {rest : List HostEvent} (hin : s.inbox = .submit t :: rest) :
    ∃ body, step s = serve s (lIn s.n t.cmd) body := by
  simp only [step, hin]
  cases hd : decode t.cmd t.arg with
  | command i => exact payloadLength_of_decode s.n hd ▸ exec_eq_serve i s
  | illegal _ => exact ⟨_, rfl⟩

/-- Settles O11: a step is the frame of R174, which refuses the payload before anything else. -/
theorem misframedTransactionRefused : Obligations.MisframedTransactionRefused := by
  intro s t rest hin hlen
  obtain ⟨body, hstep⟩ := step_eq_serve hin
  rw [hstep, serve_misframed hin hlen]

/-! ### One response a transaction -/

theorem step_of_reset {s : State} {rest : List HostEvent} (hin : s.inbox = .reset :: rest) :
    step s = .next (s.hostReset rest) := by
  simp [step, hin]

/-- R54: a step on a transaction takes it, gives it one response and leaves the build alone. -/
theorem step_answers {s s' : State} {t : Transaction} {rest : List HostEvent}
    (hin : s.inbox = .submit t :: rest) (h : step s = .next s') : Answers { s with inbox := rest } s' := by
  obtain ⟨hnil, -⟩ | ⟨_, hreset, -⟩ | ⟨u, r, hsub, hcases⟩ := step_cases h
  · simp [hin] at hnil
  · simp [hin] at hreset
  · obtain ⟨rfl, rfl⟩ : t = u ∧ rest = r := by simpa [hin] using hsub
    obtain ⟨-, -, rfl⟩ | ⟨-, c, rfl⟩ | ⟨i, -, -, -, -, rfl⟩ := hcases <;> exact ⟨rfl, rfl, rfl, _, rfl⟩

/-- R19, R78: a framed transaction is answered. -/
theorem step_of_framed {s : State} {t : Transaction} {rest : List HostEvent}
    (hs : Serves s t rest (lIn s.n t.cmd)) : ∃ s', step s = .next s' ∧ Answers { s with inbox := rest } s' := by
  obtain ⟨body, hstep⟩ := step_eq_serve hs.1
  rw [serve_of_serves hs] at hstep
  exact ⟨_, hstep, step_answers hs.1 hstep⟩

/-- How many of the Host's events get a response: the transactions, not the resets (R54; log 8). -/
def responsesDue (events : List HostEvent) : Nat := (events.filter fun e => decide (e ≠ .reset)).length

@[simp] theorem responsesDue_nil : responsesDue [] = 0 := rfl

@[simp] theorem responsesDue_reset (rest : List HostEvent) : responsesDue (.reset :: rest) = responsesDue rest := by
  simp [responsesDue]

@[simp] theorem responsesDue_submit (t : Transaction) (rest : List HostEvent) :
    responsesDue (.submit t :: rest) = responsesDue rest + 1 := by
  simp [responsesDue]

/-- A step takes the oldest of the Host's framed events, reset or transaction, and gives the response due to it behind the
earlier ones; what is left is framed for the build of the next state, which is the same. -/
theorem step_serves_event {s : State} {e : HostEvent} {rest : List HostEvent}
    (hin : s.inbox = e :: rest) (hf : FramedInbox s) :
    ∃ s', step s = .next s' ∧ s'.inbox = rest ∧ FramedInbox s' ∧
      s'.outbox.length = s.outbox.length + responsesDue [e] ∧ s.outbox <+: s'.outbox := by
  have hrest : ∀ x ∈ rest, framed s.n x = true := fun x hx => hf x (by simp [hin, hx])
  cases e with
  | reset => exact ⟨_, step_of_reset hin, rfl, hrest, by simp, by simp⟩
  | submit t =>
    have hlen : t.payload.length = lIn s.n t.cmd := by simpa [framed] using hf (.submit t) (by simp [hin])
    obtain ⟨s', hstep, hn, -, hin', r, hout⟩ := step_of_framed ⟨hin, hlen⟩
    refine ⟨s', hstep, hin', ?_, by simp [hout], by simp [hout]⟩
    rwa [FramedInbox, hin', hn]

theorem run_succ_of_step {M : Host.Core} {s s' : M.State} (h : M.step s = .next s') (k : Nat) :
    M.run (k + 1) s = M.run k s' := by
  simp [Host.Core.run, h]

/-- One step an event serves all of a framed inbox, by induction on the events left. -/
theorem run_serves_inbox (events : List HostEvent) (s : State) (hin : s.inbox = events) (hf : FramedInbox s) :
    ∃ s', Host.Core.run core events.length s = .next s' ∧ s'.inbox = [] ∧
      s'.outbox.length = s.outbox.length + responsesDue events ∧ s.outbox <+: s'.outbox := by
  induction events generalizing s with
  | nil => exact ⟨s, rfl, hin, rfl, by simp⟩
  | cons e rest ih =>
    have hdue : responsesDue (e :: rest) = responsesDue [e] + responsesDue rest := by
      cases e <;> simp [Nat.add_comm]
    obtain ⟨s₁, hstep, hin₁, hf₁, hlen₁, hpre₁⟩ := step_serves_event hin hf
    obtain ⟨s', hrun, hnil, hlen, hpre⟩ := ih s₁ hin₁ hf₁
    have hfirst : Host.Core.run core (rest.length + 1) s = Host.Core.run core rest.length s₁ :=
      run_succ_of_step hstep _
    exact ⟨s', hfirst.trans hrun, hnil, by omega, hpre₁.trans hpre⟩

/-- Settles O14: the run of one step an event, from the state itself. -/
theorem everyTransactionIsAnswered : Obligations.EveryTransactionIsAnswered :=
  fun s hf => run_serves_inbox s.inbox s rfl hf

end Sys2Proof.Machine

/-! PROOFS. The state of the engine (10_state.md): its reset values (R41), the invariant every step keeps (R23, R30, R35 to
R37), the registers no step changes (R31 to R34) and the members a command leaves alone (R21, R25). -/

namespace Sys2Proof.Machine

/-! ### The reset state (R41) -/

@[simp] theorem xorVec_zeroVec_self (n : Nat) : xorVec (zeroVec n) (zeroVec n) = zeroVec n := by
  simp [xorVec, zeroVec]

theorem member_resetFor (n : Nat) {d m : Nat} (hm : m < d) : (State.resetFor n d).member m = zeroVec n := by
  simp [State.member, State.resetFor, List.getD_eq_getElem?_getD, hm]

theorem wellSized_resetFor (n d : Nat) : WellSized (State.resetFor n d) := by
  refine ⟨List.length_replicate, fun v hv => ?_⟩
  rw [List.eq_of_mem_replicate hv]
  exact zeroVec_length n

/-- R41: the XOR of zero vectors is `0v`. -/
theorem xorMembers_resetFor (n d : Nat) {js : List Nat} (hjs : ∀ j ∈ js, j < d) :
    (State.resetFor n d).xorMembers js = zeroVec n := by
  show js.foldl _ (zeroVec n) = zeroVec n
  induction js with
  | nil => rfl
  | cons j js ih =>
    rw [List.foldl_cons, member_resetFor n (hjs j List.mem_cons_self), xorVec_zeroVec_self]
    exact ih fun k hk => hjs k (List.mem_cons_of_mem _ hk)

theorem clean_resetFor (n d : Nat) : Clean (State.resetFor n d) :=
  xorMembers_resetFor n d fun _ hj => List.mem_range.1 hj

theorem running_resetFor (n d : Nat) : Running (State.resetFor n d) := by
  simp [Running]

theorem legal_resetFor {n d : Nat} (hn : Config.LegalN n) (hd : Config.LegalD d) : Legal (State.resetFor n d) :=
  ⟨hn, hd, wellSized_resetFor n d, .inl rfl, fun _ => ⟨rfl, rfl⟩⟩

/-- R200, R201: a reset puts a legal build in a legal state, whatever events and responses are the Host's. -/
theorem legal_hostReset {s : State} (hs : Legal s) (rest : List HostEvent) : Legal (s.hostReset rest) := by
  obtain ⟨hn, hd, -⟩ := hs
  exact legal_resetFor hn hd

/-- Settles O16: the reset state of any legal build, log 1's among them. -/
theorem resetIsLegal : Obligations.ResetIsLegal :=
  ⟨legal_resetFor (by decide) (by decide), fun n d hn hd => ⟨legal_resetFor hn hd, running_resetFor n d⟩⟩

/-- Settles O15: the table of R41, and the XOR of zero vectors for the last clause. -/
theorem resetValues : Obligations.ResetValues :=
  fun n d => ⟨List.length_replicate, fun _ hm => member_resetFor n hm, rfl, clean_resetFor n d⟩

/-! ### What the checks of a command give when they pass (R73, R76) -/

theorem checkMember_eq_none {s : State} {m : Byte} : checkMember s m = none ↔ m.toNat < s.d := by
  simp [checkMember]

theorem checkCount_eq_none {s : State} {cnt : Byte} : checkCount s cnt = none ↔ cnt.toNat = s.k := by
  simp [checkCount]

/-- R73: a command that passes its checks names only members that exist. -/
theorem memberFields_lt_of_precheck {s : State} {i : Instr} (hc : precheck s i = none) :
    ∀ m ∈ memberFields i, m.toNat < s.d := by
  cases i <;> simp only [precheck, Option.or_eq_none_iff, checkMember_eq_none] at hc <;> simp [memberFields, hc]

/-! ### Every command that completes keeps the register file D registers of N bytes (R23) -/

/-- R131: with K chunks in the payload, writing the data slots keeps the sizes. -/
theorem wellSized_writeData {s : State} (hs : WellSized s) {payload : Bytes} (hlen : payload.length = s.k * s.n) :
    WellSized (s.writeData payload) := by
  have go : ∀ (ks : List Nat) (u : State), WellSized u → u.n = s.n → (∀ k ∈ ks, k < s.k) →
      WellSized (ks.foldl (fun u k => u.setMember k (payloadIn s.n payload k)) u) := by
    intro ks
    induction ks with
    | nil => exact fun u hu _ _ => hu
    | cons k ks ih =>
      intro u hu hn hks
      have hchunk : (payloadIn s.n payload k).length = s.n :=
        payloadIn_length _ _ _ (by rw [hlen]; exact Nat.mul_le_mul_right _ (hks k List.mem_cons_self))
      exact ih _ (wellSized_setMember hu k (hchunk.trans hn.symm)) hn
        fun j hj => hks j (List.mem_cons_of_mem _ hj)
  exact go _ s hs rfl fun _ hk => List.mem_range.1 hk

/-- R131: SWRITE keeps the sizes. -/
theorem wellSized_swrite {s : State} (hs : WellSized s) {payload : Bytes} (hlen : payload.length = s.k * s.n) :
    WellSized { s with members := (s.writeData payload).members.set s.p (s.writeData payload).parity } := by
  have hw := wellSized_writeData hs hlen
  have hset := wellSized_setMember hw s.p (parity_length hw)
  simpa [WellSized] using hset

/-- R137: what SRESTORE writes has N bytes. -/
theorem restored_length {s : State} (hs : WellSized s) (hd : 2 ≤ s.d) (i : Nat) :
    (if i = s.p then s.parity else s.recon i).length = s.n := by
  split
  · exact parity_length hs
  · exact recon_length hs hd i

/-- R23: a command that passes its checks, on a payload of the length it asks for, leaves D registers of N bytes. -/
theorem wellSized_newMembers {s : State} {i : Instr} {payload : Bytes} (hs : WellSized s) (hd : 2 ≤ s.d)
    (hc : precheck s i = none) (hlen : payload.length = payloadLength s.n i) :
    WellSized { s with members := newMembers s payload i } := by
  have hm := memberFields_lt_of_precheck hc
  cases i with
  | vzero vd => exact wellSized_setMember hs _ (zeroVec_length _)
  | bset vd b val =>
    exact wellSized_setMember hs _ ((writeBit_length _ _ _).trans (member_length hs (hm vd (by simp [memberFields]))))
  | vxor vd va vb =>
    have ha := member_length hs (hm va (by simp [memberFields]))
    have hb := member_length hs (hm vb (by simp [memberFields]))
    exact wellSized_setMember hs _ (by rw [xorVec_length, ha, hb, Nat.min_self])
  | vcopy vd vs => exact wellSized_setMember hs _ (member_length hs (hm vs (by simp [memberFields])))
  | vload vd =>
    have hn : payload.length = s.n := hlen.trans (payloadLength_vload s.n vd)
    exact wellSized_setMember hs _ (payloadIn_length _ _ 0 (by omega))
  | swrite cnt =>
    have hn : payload.length = cnt.toNat * s.n := hlen.trans (payloadLength_swrite s.n cnt)
    exact wellSized_swrite hs (by rw [hn, checkCount_eq_none.1 hc])
  | srestore idx => exact wellSized_setMember hs _ (restored_length hs hd _)
  | bget vs b => exact hs
  | vstore vs => exact hs
  | sread cnt => exact hs
  | csrr csr => exact hs

/-! ### The fault record (R35 to R37, R172) -/

theorem faultNumber_range (c : FaultCode) : 1 ≤ (faultNumber c).toNat ∧ (faultNumber c).toNat ≤ 4 := by
  cases c <;> decide

/-- R173: `(code << 4) | 1` as a number. -/
theorem faultStatus_eq (c : FaultCode) :
    ((faultNumber c).setWidth 32 <<< 4) ||| 1 = BitVec.ofNat 32 (16 * (faultNumber c).toNat + 1) := by
  cases c <;> rfl

theorem legalStatus_of_fault (c : FaultCode) : LegalStatus (((faultNumber c).setWidth 32 <<< 4) ||| 1) := by
  cases c <;> decide

@[simp] theorem faulted_faultedWith (s : State) (rest : List HostEvent) (t : Transaction) (code : BitVec 4) :
    (faultedWith s rest t code).faulted = true := by
  simp [State.faulted]

theorem legal_faultedWith {s : State} (hs : Legal s) (rest : List HostEvent) (t : Transaction) (c : FaultCode) :
    Legal (faultedWith s rest t (faultNumber c)) := by
  obtain ⟨hn, hd, hsize, -, -⟩ := hs
  refine ⟨hn, hd, hsize, legalStatus_of_fault c, fun hrun => ?_⟩
  simp at hrun

theorem legal_completedWith {s : State} (hs : Legal s) (rest : List HostEvent) {ms : List Bytes} (rval : Word)
    (out : Bytes) (hms : WellSized { s with members := ms }) : Legal (completedWith s rest ms rval out) := by
  obtain ⟨hn, hd, -, hstatus, hrecord⟩ := hs
  exact ⟨hn, hd, hms, hstatus, hrecord⟩

/-- Settles O17: by the cases of a step; the work is in the sizes of the registers a completed command leaves. -/
theorem stepKeepsLegal : Obligations.StepKeepsLegal := by
  intro s s' hs h
  obtain ⟨-, rfl⟩ | ⟨rest, -, rfl⟩ | ⟨t, rest, -, hcases⟩ := step_cases h
  · exact hs
  · exact legal_hostReset hs rest
  · obtain ⟨-, -, rfl⟩ | ⟨-, c, rfl⟩ | ⟨i, -, -, hlen, hc, rfl⟩ := hcases
    · exact hs
    · exact legal_faultedWith hs rest t c
    · have ⟨_, ⟨hd, _⟩, hsize, _⟩ := hs
      exact legal_completedWith hs rest _ _ (wellSized_newMembers hsize hd hc hlen)

/-- Settles O20: of the steps that are no reset, only the fault of a running engine writes the record. -/
theorem faultRecordChangesOnlyAtFirstFault : Obligations.FaultRecordChangesOnlyAtFirstFault := by
  intro s s' hreset h
  obtain ⟨-, rfl⟩ | ⟨rest, hin, -⟩ | ⟨t, rest, hin, hcases⟩ := step_cases h
  · exact .inl ⟨rfl, rfl, rfl⟩
  · exact absurd hin (hreset rest)
  · obtain ⟨-, -, rfl⟩ | ⟨hrun, c, rfl⟩ | ⟨i, -, -, -, -, rfl⟩ := hcases
    · exact .inl ⟨rfl, rfl, rfl⟩
    · obtain ⟨hlow, hhigh⟩ := faultNumber_range c
      exact .inr ⟨hrun, rfl, t, rest, (faultNumber c).toNat, hin, hlow, hhigh, faultStatus_eq c, rfl, rfl⟩
    · exact .inl ⟨rfl, rfl, rfl⟩

/-! ### The registers that report the build (R31 to R34) -/

/-- R8: no step changes the build. -/
theorem step_build {s s' : State} (h : step s = .next s') : s'.n = s.n ∧ s'.d = s.d := by
  obtain ⟨-, rfl⟩ | ⟨rest, -, rfl⟩ | ⟨t, rest, hin, -⟩ := step_cases h
  · exact ⟨rfl, rfl⟩
  · exact ⟨rfl, rfl⟩
  · obtain ⟨hn, hd, -⟩ := step_answers hin h
    exact ⟨hn, hd⟩

/-- R31 to R34: registers 0 to 3 read as constants of the build. -/
theorem csrRead_of_le_three (s : State) {csr : Byte} (h : csr.toNat ≤ 3) :
    s.csrRead csr = [some 1, some (BitVec.ofNat 32 s.n), some (BitVec.ofNat 32 s.d), some 1].getD csr.toNat none := by
  unfold State.csrRead
  generalize csr.toNat = number at h ⊢
  interval_cases number <;> rfl

/-- Settles O21: registers 0 to 3 read the build alone, which no step changes. -/
theorem constantRegistersNeverChange : Obligations.ConstantRegistersNeverChange := by
  intro s s' csr hcsr h
  obtain ⟨hn, hd⟩ := step_build h
  have hread := csrRead_of_le_three s' hcsr
  rw [hn, hd] at hread
  exact ⟨hread.trans (csrRead_of_le_three s hcsr).symm, hread⟩

/-! ### The members a command leaves alone (R21, R25) -/

/-- What a command that completes does to the register file: nothing, or one write to the member R21 names, or SWRITE. -/
theorem newMembers_cases (s : State) (payload : Bytes) (i : Instr) :
    newMembers s payload i = s.members ∨
    (∃ vd v, writtenMember i = some vd ∧ newMembers s payload i = (s.setMember vd.toNat v).members) ∨
    ∃ cnt, i = .swrite cnt := by
  cases i with
  | bget vs b => exact .inl rfl
  | vstore vs => exact .inl rfl
  | sread cnt => exact .inl rfl
  | csrr csr => exact .inl rfl
  | swrite cnt => exact .inr (.inr ⟨cnt, rfl⟩)
  | _ => exact .inr (.inl ⟨_, _, rfl, rfl⟩)

theorem writeData_members_length (s : State) (payload : Bytes) :
    (s.writeData payload).members.length = s.members.length := by
  rw [State.writeData_eq]
  exact setChunks_length _ _ _ _

theorem newMembers_length (s : State) (payload : Bytes) (i : Instr) :
    (newMembers s payload i).length = s.members.length := by
  obtain h | ⟨vd, v, -, h⟩ | ⟨cnt, rfl⟩ := newMembers_cases s payload i
  · rw [h]
  · simp [h]
  · simp [newMembers, writeData_members_length]

theorem mayWrite_of_writtenMember {i : Instr} {vd : Byte} (h : writtenMember i = some vd) : mayWrite i vd.toNat = true := by
  unfold mayWrite
  split
  · rfl
  · simp [h]

/-- R25: the register file after a command holds what it held, but for the members the command may write. -/
theorem newMembers_getD_of_not_mayWrite (s : State) (payload : Bytes) {i : Instr} {m : Nat} (hm : mayWrite i m = false) :
    (newMembers s payload i).getD m [] = s.member m := by
  obtain h | ⟨vd, v, hvd, h⟩ | ⟨cnt, rfl⟩ := newMembers_cases s payload i
  · rw [h]; rfl
  · have hne : vd.toNat ≠ m := by
      rintro rfl
      simp [mayWrite_of_writtenMember hvd] at hm
    rw [h]
    exact member_setMember_ne s v hne
  · cases hm

/-- What a command does to the register file when it answers a next state, however it answers. -/
theorem exec_members {i : Instr} {s s' : State} (h : exec i s = .next s') :
    s'.members = s.members ∨ ∃ payload, s'.members = newMembers s payload i := by
  obtain ⟨t, rest, -, ⟨-, -, rfl⟩ | ⟨-, -, c, -, rfl⟩ | ⟨-, -, -, rfl⟩ | ⟨csr, -, -, rfl⟩⟩ := exec_next h
  · exact .inl rfl
  · exact .inl rfl
  · exact .inr ⟨t.payload, by rw [effect_taken, completedWith_members]⟩
  · obtain ⟨-, he⟩ | ⟨-, he⟩ := rejectIllegal_eq ({ s with inbox := rest } : State) t <;> exact .inl (by rw [he]; rfl)

/-- Settles O22: a next state keeps the register file or takes the command's new one. -/
theorem execWritesOnlyItsMember : Obligations.ExecWritesOnlyItsMember := by
  intro i s s' h
  obtain hsame | ⟨payload, hnew⟩ := exec_members h
  · exact ⟨by rw [hsame], fun m _ => by rw [State.member, hsame, State.member]⟩
  · exact ⟨by rw [hnew, newMembers_length],
      fun m hm => by rw [State.member, hnew, newMembers_getD_of_not_mayWrite s payload hm]⟩

end Sys2Proof.Machine

/-! PROOFS. Ordering and repetition (20_memory.md): the byte order of a header (R53), one response a transaction (R54), reads
without a side effect (R57) and writes that may be repeated (R58). -/

namespace Sys2Proof.Machine

/-! ### Byte order and responses in order (R53, R54) -/

/-- Settles O5: the header bytes are the two words' bytes, which are read back as the words. -/
theorem headerBytesDecode : Obligations.HeaderBytesDecode := by
  intro cmd arg payload
  show decodeBytes (wordBytes cmd ++ wordBytes arg ++ payload) = decode cmd arg
  rw [decodeBytes, splitHeader_header]

/-- Settles O13: what a step on a transaction answers. -/
theorem oneResponsePerTransaction : Obligations.OneResponsePerTransaction := by
  intro s s' t rest hin h
  obtain ⟨hn, hd, hrest, hout⟩ := step_answers hin h
  exact ⟨hrest, hn, hd, hout⟩

/-! ### When a command executes (R174, R175) -/

/-- R174, R175: the engine executes the command: a CSRR of a defined register in either condition, any other command while
running and with its checks passed. -/
def Accepts (s : State) (i : Instr) : Prop :=
  (∀ csr, i = .csrr csr → csrDefined csr) ∧ ((∀ csr, i ≠ .csrr csr) → s.faulted = false) ∧ precheck s i = none

/-- A framed command that the engine executes leaves its effect. -/
theorem exec_of_accepts {i : Instr} {s : State} {t : Transaction} {rest : List HostEvent}
    (hs : Serves s t rest (payloadLength s.n i)) (ha : Accepts s i) :
    exec i s = .next (completedWith s rest (newMembers s t.payload i) (newValue s i) (newOutput s i)) := by
  obtain ⟨hdefined, hrun, hcheck⟩ := ha
  by_cases hi : ∃ csr, i = .csrr csr
  · obtain ⟨csr, rfl⟩ := hi
    obtain ⟨value, hvalue⟩ := Option.isSome_iff_exists.1 ((csrRead_isSome s csr).2 (hdefined csr rfl))
    have hvalue' : ({ s with inbox := rest } : State).csrRead csr = some value := hvalue
    show execCsrr csr s = _
    rw [execCsrr, serve_of_serves hs]
    simp [hvalue', newMembers, newValue, newOutput, hvalue, completedWith, State.respondOk, State.respond, respWord,
      outcomeNumber]
  · have hne : ∀ csr, i ≠ .csrr csr := fun csr hc => hi ⟨csr, hc⟩
    exact exec_completes hne hs (hrun hne) hcheck

/-- What a command answers when it answers a next state: its effect, or a refusal while faulted, or a fault. -/
theorem exec_cases {i : Instr} {s s' : State} {t : Transaction} {rest : List HostEvent}
    (hin : s.inbox = .submit t :: rest) (h : exec i s = .next s') :
    (Accepts s i ∧ t.payload.length = payloadLength s.n i ∧
      s' = completedWith s rest (newMembers s t.payload i) (newValue s i) (newOutput s i)) ∨
    (s.faulted = true ∧ s' = refusedAnswer s rest) ∨
    ∃ c, s' = faultedWith s rest t (faultNumber c) := by
  obtain ⟨u, r, ⟨hin', hlen⟩, hcases⟩ := exec_next h
  obtain ⟨rfl, rfl⟩ : t = u ∧ rest = r := by simpa [hin] using hin'
  obtain ⟨-, hf, rfl⟩ | ⟨-, -, c, -, rfl⟩ | ⟨hdefined, hrun, hcheck, rfl⟩ | ⟨csr, -, -, rfl⟩ := hcases
  · exact .inr (.inl ⟨hf, refuse_taken s rest⟩)
  · exact .inr (.inr ⟨c, raiseFault_taken s rest t c⟩)
  · exact .inl ⟨⟨hdefined, hrun, hcheck⟩, hlen, effect_taken i t s rest⟩
  · obtain ⟨hf, he⟩ | ⟨-, he⟩ := rejectIllegal_eq ({ s with inbox := rest } : State) t
    · exact .inr (.inl ⟨hf, he.trans (refuse_taken s rest)⟩)
    · exact .inr (.inr ⟨_, he.trans (raiseFault_taken s rest t _)⟩)

@[simp] theorem faultedWith_outbox (s : State) (rest : List HostEvent) (t : Transaction) (code : BitVec 4) :
    (faultedWith s rest t code).outbox = s.outbox ++ [⟨(code.setWidth 32 <<< 4) ||| 1, 0, []⟩] := rfl

@[simp] theorem refusedAnswer_outbox (s : State) (rest : List HostEvent) :
    (refusedAnswer s rest).outbox =
      s.outbox ++ [⟨((s.status.extractLsb' 4 4).setWidth 32 <<< 4) ||| 2, 0, []⟩] := rfl

/-- R80: RESP = 0 says that the command completed. -/
theorem completed_of_resp_zero {i : Instr} {s s' : State} {t : Transaction} {rest : List HostEvent} {r : Response}
    (hin : s.inbox = .submit t :: rest) (h : exec i s = .next s') (hout : s'.outbox = s.outbox ++ [r])
    (hr : r.resp = 0) :
    Accepts s i ∧ r = ⟨0, newValue s i, newOutput s i⟩ ∧
      s' = completedWith s rest (newMembers s t.payload i) r.rval r.payload := by
  obtain ⟨ha, -, rfl⟩ | ⟨-, rfl⟩ | ⟨c, rfl⟩ := exec_cases hin h
  · obtain rfl : r = ⟨0, newValue s i, newOutput s i⟩ := by simpa using hout.symm
    exact ⟨ha, rfl, rfl⟩
  · obtain rfl : r = _ := by simpa using hout.symm
    simp [BitVec.or_eq_zero_iff] at hr
  · obtain rfl : r = _ := by simpa using hout.symm
    simp [BitVec.or_eq_zero_iff] at hr

/-- R172, R175: running before and after says that the command completed. -/
theorem completed_of_running {i : Instr} {s s' : State} {t : Transaction} {rest : List HostEvent}
    (hin : s.inbox = .submit t :: rest) (h : exec i s = .next s') (hrun : Running s) (hrun' : Running s') :
    Accepts s i ∧ t.payload.length = payloadLength s.n i ∧
      s' = completedWith s rest (newMembers s t.payload i) (newValue s i) (newOutput s i) := by
  obtain hdone | ⟨hf, -⟩ | ⟨c, rfl⟩ := exec_cases hin h
  · exact hdone
  · cases hrun.symm.trans hf
  · cases hrun'.symm.trans (faulted_faultedWith s rest t _)

/-! ### The same command again -/

/-- R55, R73: no condition a command executes on is changed by a command that completed. -/
theorem accepts_completedWith {s : State} {i : Instr} (ha : Accepts s i) (rest : List HostEvent) (ms : List Bytes)
    (rval : Word) (out : Bytes) : Accepts (completedWith s rest ms rval out) i := by
  obtain ⟨hdefined, hrun, hcheck⟩ := ha
  refine ⟨hdefined, hrun, Eq.trans ?_ hcheck⟩
  cases i <;> rfl

/-- The same command, served right after it completed, completes again. -/
theorem exec_again {i : Instr} {s : State} {u : Transaction} {rest : List HostEvent} {ms : List Bytes} {rval : Word}
    {out : Bytes} (ha : Accepts s i) (hlen : u.payload.length = payloadLength s.n i) {s₁ : State}
    (hs₁ : s₁ = completedWith s (.submit u :: rest) ms rval out) :
    exec i s₁ = .next (completedWith s₁ rest (newMembers s₁ u.payload i) (newValue s₁ i) (newOutput s₁ i)) := by
  subst hs₁
  exact exec_of_accepts ⟨rfl, hlen⟩ (accepts_completedWith ha _ _ _ _)

/-! ### Reads (R57) -/

/-- R57: the commands that only read. -/
def readsOnly : Instr → Bool
  | .bget _ _ | .vstore _ | .sread _ | .csrr _ => true
  | _ => false

theorem payloadLength_of_readsOnly (n : Nat) {i : Instr} (hi : readsOnly i = true) : payloadLength n i = 0 := by
  cases i with
  | bget vs x => exact payloadLength_bget n vs x
  | vstore vs => exact payloadLength_vstore n vs
  | sread cnt => exact payloadLength_sread n cnt
  | csrr csr => exact payloadLength_csrr n csr
  | _ => cases hi

theorem newMembers_of_readsOnly (s : State) (payload : Bytes) {i : Instr} (hi : readsOnly i = true) :
    newMembers s payload i = s.members := by
  cases i with
  | bget vs x => rfl
  | vstore vs => rfl
  | sread cnt => rfl
  | csrr csr => rfl
  | _ => cases hi

/-- R81: the value word is read from the members, the build and the fault record, not from the Host's queues. -/
theorem newValue_completedWith (s : State) (rest : List HostEvent) (rval : Word) (out : Bytes) (i : Instr) :
    newValue (completedWith s rest s.members rval out) i = newValue s i := by
  cases i <;> rfl

/-- R79: so is the output payload. -/
theorem newOutput_completedWith (s : State) (rest : List HostEvent) (rval : Word) (out : Bytes) (i : Instr) :
    newOutput (completedWith s rest s.members rval out) i = newOutput s i := by
  cases i <;> rfl

/-- Settles O51: a read that completed changed no member, so the second one reads the same. -/
theorem readsHaveNoSideEffect : Obligations.ReadsHaveNoSideEffect := by
  intro i s s₁ t u rest r hread hin hu h hout hr
  have hi : readsOnly i = true := by
    obtain ⟨_, _, rfl⟩ | ⟨_, rfl⟩ | ⟨_, rfl⟩ | ⟨_, rfl⟩ := hread <;> rfl
  obtain ⟨ha, hresponse, hs₁⟩ := completed_of_resp_zero hin h hout hr
  rw [newMembers_of_readsOnly s _ hi] at hs₁
  have hagain := exec_again ha (by rw [hu, payloadLength_of_readsOnly s.n hi, List.length_nil]) hs₁
  have hvalue : newValue s₁ i = r.rval := by rw [hs₁, newValue_completedWith, hresponse]
  have houtput : newOutput s₁ i = r.payload := by rw [hs₁, newOutput_completedWith, hresponse]
  rw [newMembers_of_readsOnly s₁ _ hi, hvalue, houtput] at hagain
  subst hs₁
  exact ⟨rfl, rfl, rfl, rfl, hagain⟩

/-! ### Writes (R58) -/

theorem newValue_of_write (s : State) {i : Instr} (hi : readsOnly i = false) : newValue s i = 0 := by
  cases i with
  | bget vs x => cases hi
  | csrr csr => cases hi
  | _ => rfl

theorem newOutput_of_write (s : State) {i : Instr} (hi : readsOnly i = false) : newOutput s i = [] := by
  cases i with
  | vstore vs => cases hi
  | sread cnt => cases hi
  | _ => rfl

/-- R104: what BSET does to a byte, done twice. -/
theorem maskedWrite_idempotent (b mask new : Byte) :
    ((b &&& ~~~mask ||| new) &&& ~~~mask) ||| new = b &&& ~~~mask ||| new := by
  ext j hj
  simp only [BitVec.getElem_or, BitVec.getElem_and, BitVec.getElem_not]
  cases mask[j] <;> simp

/-- R104: setting a bit twice to one value is setting it once. -/
theorem writeBit_writeBit_self (v : Bytes) (i : Word) (val : Bool) :
    writeBit (writeBit v i val) i val = writeBit v i val := by
  unfold writeBit
  by_cases hj : byteIndex i < v.length
  · simp [byteAt, List.getD_eq_getElem?_getD, hj, maskedWrite_idempotent]
  · simp [List.set_eq_of_length_le (not_lt.1 hj)]

theorem members_ext {a b : List Bytes} (hlen : a.length = b.length) (h : ∀ m < b.length, a.getD m [] = b.getD m []) :
    a = b := by
  refine List.ext_getElem hlen fun m hm hm' => ?_
  simpa [List.getD_eq_getElem?_getD, hm, hm'] using h m hm'

/-- R131, R132: after SWRITE the parity slot holds the parity of the new data slots, and every other slot its chunk. -/
theorem newMembers_swrite_getD {s : State} (hs : s.members.length = s.d) (payload : Bytes) (cnt : Byte) {m : Nat}
    (hm : m < s.d) :
    (newMembers s payload (.swrite cnt)).getD m [] =
      if m = s.p then (s.writeData payload).parity else payloadIn s.n payload m := by
  show ((s.writeData payload).setMember s.p (s.writeData payload).parity).member m = _
  split
  case isTrue h =>
    subst h
    exact member_setMember_self _ (by rwa [writeData_members_length, hs])
  case isFalse h =>
    rw [member_setMember_ne _ _ (Ne.symm h), writeData_member hs, if_pos]
    unfold State.p at h
    unfold State.k
    omega

/-- R131, corner cases: SWRITE never reads the old members; what it leaves depends on the build and the payload alone. -/
theorem newMembers_swrite_congr {s u : State} (hn : u.n = s.n) (hd : u.d = s.d) (hs : s.members.length = s.d)
    (hu : u.members.length = u.d) (payload : Bytes) (cnt : Byte) :
    newMembers u payload (.swrite cnt) = newMembers s payload (.swrite cnt) := by
  have hk : u.k = s.k := by rw [State.k, State.k, hd]
  have hp : u.p = s.p := by rw [State.p, State.p, hd]
  have hslot : ∀ m < s.k, (u.writeData payload).member m = (s.writeData payload).member m := by
    intro m hm
    rw [writeData_member hu, writeData_member hs, hk, hn, if_pos hm, if_pos hm]
  have hparity : (u.writeData payload).parity = (s.writeData payload).parity := by
    rw [State.parity, State.parity, show (u.writeData payload).k = s.k by simp [State.k, hd],
      show (s.writeData payload).k = s.k by simp [State.k]]
    exact xorMembers_congr (by simp [hn]) fun m hm => hslot m (List.mem_range.1 hm)
  refine members_ext (by rw [newMembers_length, newMembers_length, hu, hs, hd]) fun m hm => ?_
  have hm' : m < s.d := by rwa [newMembers_length, hs] at hm
  rw [newMembers_swrite_getD hu _ _ (hd ▸ hm'), newMembers_swrite_getD hs _ _ hm', hp, hn, hparity]

/-- R132, R136: what SRESTORE writes to a member does not depend on what the member held. -/
theorem restored_setMember (s : State) (idx : Nat) (v : Bytes) :
    (if idx = s.p then (s.setMember idx v).parity else (s.setMember idx v).recon idx) =
      if idx = s.p then s.parity else s.recon idx := by
  split
  case isTrue h =>
    refine xorMembers_congr rfl fun j hj => member_setMember_ne s v ?_
    have : j < s.p := List.mem_range.1 hj
    omega
  case isFalse h =>
    have hothers : (s.setMember idx v).xorMembers ((List.range s.k).filter fun j => j ≠ idx) =
        s.xorMembers ((List.range s.k).filter fun j => j ≠ idx) :=
      xorMembers_congr rfl fun j hj => member_setMember_ne s v (of_decide_eq_true (List.mem_filter.1 hj).2).symm
    have hparity : (s.setMember idx v).member s.p = s.member s.p := member_setMember_ne s v h
    exact congrArg₂ xorVec hparity hothers

/-- R58: the register file is the same after a second run of a command, but for a VXOR that writes a source of its own. -/
theorem newMembers_idempotent {s : State} {i : Instr} (hs : s.members.length = s.d)
    (hc : precheck s i = none) (hxor : ∀ vd va vb, i = .vxor vd va vb → vd ≠ va ∧ vd ≠ vb) (payload : Bytes)
    (rest : List HostEvent) (rval : Word) (out : Bytes) :
    newMembers (completedWith s rest (newMembers s payload i) rval out) payload i = newMembers s payload i := by
  have hm := memberFields_lt_of_precheck hc
  have twice (m : Byte) {v v' : Bytes} (h : v' = v) :
      (s.members.set m.toNat v).set m.toNat v' = s.members.set m.toNat v := by
    rw [h, List.set_set]
  have self (m : Byte) (v : Bytes) (hmem : m ∈ memberFields i) : (s.setMember m.toNat v).member m.toNat = v :=
    member_setMember_self v (hs ▸ hm m hmem)
  have other {m m' : Byte} (v : Bytes) (h : m ≠ m') : (s.setMember m.toNat v).member m'.toNat = s.member m'.toNat :=
    member_setMember_ne s v fun he => h (BitVec.eq_of_toNat_eq he)
  cases i with
  | vzero vd => exact twice vd rfl
  | vload vd => exact twice vd rfl
  | bset vd x val =>
    have hread := self vd (writeBit (s.member vd.toNat) x val) (by simp [memberFields])
    exact twice vd ((congrArg (writeBit · x val) hread).trans (writeBit_writeBit_self _ x val))
  | vcopy vd vs =>
    refine twice vd ?_
    by_cases h : vd = vs
    · subst h
      exact self vd _ (by simp [memberFields])
    · exact other _ h
  | vxor vd va vb =>
    obtain ⟨hva, hvb⟩ := hxor vd va vb rfl
    exact twice vd (congrArg₂ xorVec (other _ hva) (other _ hvb))
  | srestore idx => exact twice idx (restored_setMember s idx.toNat _)
  | swrite cnt =>
    have hlen := (newMembers_length s payload (.swrite cnt)).trans hs
    refine newMembers_swrite_congr ?_ ?_ hs ?_ payload cnt <;> simp [hlen]
  | bget vs x => rfl
  | vstore vs => rfl
  | sread cnt => rfl
  | csrr csr => rfl

/-- Settles O52: the second run is executed like the first, and its register file is the one it finds. -/
theorem writesAreIdempotent : Obligations.WritesAreIdempotent := by
  intro i s s₁ t rest hwrite hs hin hrun h hrun₁
  have hi : readsOnly i = false := by
    obtain ⟨_, rfl⟩ | ⟨_, _, _, rfl⟩ | ⟨_, _, rfl⟩ | ⟨_, rfl⟩ | ⟨_, rfl⟩ | ⟨_, rfl⟩ | ⟨_, _, _, rfl, -⟩ := hwrite <;> rfl
  have hxor : ∀ vd va vb, i = .vxor vd va vb → vd ≠ va ∧ vd ≠ vb := by
    rintro vd va vb rfl
    simpa using hwrite
  obtain ⟨-, -, ⟨hsize, -⟩, -⟩ := hs
  obtain ⟨ha, hlen, hs₁⟩ := completed_of_running hin h hrun hrun₁
  have hagain := exec_again ha hlen hs₁
  obtain ⟨-, -, hcheck⟩ := ha
  have hsame : newMembers s₁ t.payload i = s₁.members := by
    rw [hs₁]
    exact newMembers_idempotent hsize hcheck hxor _ _ _ _
  rwa [hsame, newValue_of_write s₁ hi, newOutput_of_write s₁ hi] at hagain

end Sys2Proof.Machine

/-! PROOFS. The command encoding (30_encoding.md): decoding and encoding as two directions of one relation (R71 to R84), the
illegal encodings (R77), and transactions on a byte stream (R78, R83). -/

namespace Sys2Proof.Machine

/-! ### The word that four fields pack to (R71) -/

theorem packCmd_eq_iff {op a b c : Byte} {cmd : Word} :
    packCmd op a b c = cmd ↔ op = fieldOp cmd ∧ a = fieldA cmd ∧ b = fieldB cmd ∧ c = fieldC cmd := by
  constructor
  · rintro rfl
    simp
  · rintro ⟨rfl, rfl, rfl, rfl⟩
    exact packCmd_fields cmd

theorem exists_eq_packCmd (cmd : Word) : ∃ op a b c, cmd = packCmd op a b c :=
  ⟨_, _, _, _, (packCmd_fields cmd).symm⟩

/-- R71: with B and C 0 the command word is `OP + 256 * A`. -/
theorem packCmd_ofNat {op a : Nat} (hop : op < 256) (ha : a < 256) :
    packCmd (BitVec.ofNat 8 op) (BitVec.ofNat 8 a) 0 0 = BitVec.ofNat 32 (op + 256 * a) := by
  refine packCmd_eq_iff.2 ⟨?_, ?_, ?_, ?_⟩ <;> apply BitVec.eq_of_toNat_eq <;>
    simp [fieldOp, fieldA, fieldB, fieldC, BitVec.extractLsb'_toNat, Nat.shiftRight_eq_div_pow] <;> omega

/-! ### What decoding makes of each opcode (R77, R84) -/

section Opcodes

variable (a b c : Byte) (arg : Word)

@[simp] theorem decode_op_vzero :
    decode (packCmd 0x01#8 a b c) arg = requireZero (b == 0 && c == 0) (arg == 0) (.vzero a) := by
  simp [decode]

@[simp] theorem decode_op_bget :
    decode (packCmd 0x02#8 a b c) arg = requireZero (b == 0 && c == 0) true (.bget a arg) := by
  simp [decode]

@[simp] theorem decode_op_bset :
    decode (packCmd 0x03#8 a b c) arg =
      requireZero (b.extractLsb' 1 7 == 0 && c == 0) true (.bset a arg (b.getLsbD 0)) := by
  simp [decode]

@[simp] theorem decode_op_vxor :
    decode (packCmd 0x04#8 a b c) arg = requireZero true (arg == 0) (.vxor a b c) := by
  simp [decode]

@[simp] theorem decode_op_vcopy :
    decode (packCmd 0x05#8 a b c) arg = requireZero (c == 0) (arg == 0) (.vcopy a b) := by
  simp [decode]

@[simp] theorem decode_op_vload :
    decode (packCmd 0x06#8 a b c) arg = requireZero (b == 0 && c == 0) (arg == 0) (.vload a) := by
  simp [decode]

@[simp] theorem decode_op_vstore :
    decode (packCmd 0x07#8 a b c) arg = requireZero (b == 0 && c == 0) (arg == 0) (.vstore a) := by
  simp [decode]

@[simp] theorem decode_op_swrite :
    decode (packCmd 0x10#8 a b c) arg = requireZero (b == 0 && c == 0) (arg == 0) (.swrite a) := by
  simp [decode]

@[simp] theorem decode_op_sread :
    decode (packCmd 0x11#8 a b c) arg = requireZero (b == 0 && c == 0) (arg == 0) (.sread a) := by
  simp [decode]

@[simp] theorem decode_op_srestore :
    decode (packCmd 0x12#8 a b c) arg = requireZero (b == 0 && c == 0) (arg == 0) (.srestore a) := by
  simp [decode]

@[simp] theorem decode_op_csrr :
    decode (packCmd 0x20#8 a b c) arg =
      if csrDefined a then requireZero (b == 0 && c == 0) (arg == 0) (.csrr a) else .illegal .reservedCsr := by
  simp [decode]

end Opcodes

/-- R77: the opcodes that name a command. -/
abbrev opcodes : List Byte := [0x01#8, 0x02#8, 0x03#8, 0x04#8, 0x05#8, 0x06#8, 0x07#8, 0x10#8, 0x11#8, 0x12#8, 0x20#8]

theorem decode_of_unlisted {op : Byte} (h : op ∉ opcodes) (a b c : Byte) (arg : Word) :
    decode (packCmd op a b c) arg = .illegal .unlistedOpcode := by
  unfold decode
  simp only [fieldOp_packCmd]
  split
  case h_12 => rfl
  all_goals
    rename_i hop
    simp [← BitVec.toNat_inj, hop] at h

/-! ### The fields that a format marks 0 (R72) -/

@[simp] theorem requireZero_true (i : Instr) : requireZero true true i = .command i := rfl

theorem requireZero_illegal_iff {fields arg : Bool} {i : Instr} :
    (∃ why, requireZero fields arg i = .illegal why) ↔ fields = false ∨ arg = false := by
  cases fields <;> cases arg <;> simp [requireZero]

theorem bothZero_eq_false_iff {b c : Byte} : (b == 0#8 && c == 0#8) = false ↔ b ≠ 0#8 ∨ c ≠ 0#8 := by
  simp [imp_iff_not_or]

/-- R72: the seven upper bits of BSET's B field are 0 when the field is 0 or 1. -/
theorem upperBits_eq_zero_iff (b : Byte) : b.extractLsb' 1 7 = 0#7 ↔ b.toNat < 2 := by
  rw [← BitVec.toNat_inj, BitVec.extractLsb'_toNat, Nat.shiftRight_eq_div_pow]
  have := b.isLt
  simp
  omega

theorem bitField_eq_false_iff {b c : Byte} :
    (b.extractLsb' 1 7 == 0#7 && c == 0#8) = false ↔ 2 ≤ b.toNat ∨ c ≠ 0#8 := by
  rw [Bool.and_eq_false_iff, beq_eq_false_iff_ne, beq_eq_false_iff_ne, ne_eq, upperBits_eq_zero_iff, not_lt]

/-- R77, items 2 to 4 for CSRR. -/
theorem csrr_illegal_iff {a : Byte} {fields arg : Bool} {i : Instr} :
    (∃ why, (if csrDefined a then requireZero fields arg i else .illegal .reservedCsr) = .illegal why) ↔
      fields = false ∨ arg = false ∨ 0x06 < a.toNat := by
  split_ifs with hcsr
  · rw [requireZero_illegal_iff, or_iff_left (Nat.not_lt.2 hcsr)]
  · exact iff_of_true ⟨_, rfl⟩ (.inr (.inr (Nat.lt_of_not_le hcsr)))

/-- R72: a B field without its upper bits is the bit value that BSET writes. -/
theorem bitValue_of_upperBits {b : Byte} (h : b.extractLsb' 1 7 = 0#7) :
    (BitVec.ofBool (b.getLsbD 0)).setWidth 8 = b := by
  have hb := (upperBits_eq_zero_iff b).1 h
  obtain rfl | rfl : b = 0#8 ∨ b = 1#8 := by
    simp only [← BitVec.toNat_inj, BitVec.toNat_ofNat]
    omega
  · rfl
  · rfl

/-! ### Decoding and encoding agree (R84) -/

/-- Settles O1, by the form of each command; BSET has one bit in its B field and CSRR a defined register in its A field. -/
theorem decodeEncodeRoundTrip : Obligations.DecodeEncodeRoundTrip := by
  intro i hi
  cases i with
  | bset vd x val => cases val <;> simp [encode]
  | csrr csr =>
    have hcsr : csrDefined csr := of_decide_eq_true hi
    simp [encode, hcsr]
  | _ => simp [encode]

/-- A row of R77 whose one operand is A: with B, C and ARG 0 the words are those of the encoding. -/
theorem encode_of_oneField {i j : Instr} {op a b c : Byte} {arg : Word}
    (h : requireZero (b == 0 && c == 0) (arg == 0) i = .command j) (hi : encode i = (packCmd op a 0 0, 0))
    (hwf : i.wellFormed = true) : encode j = (packCmd op a b c, arg) ∧ j.wellFormed = true := by
  obtain ⟨hbc, harg, rfl⟩ := requireZero_eq_command.1 h
  obtain ⟨rfl, rfl⟩ : b = 0 ∧ c = 0 := by simpa using hbc
  obtain rfl := eq_of_beq harg
  exact ⟨hi, hwf⟩

/-- Settles O2: the opcode fixes the row of R77, and the row's zero fields leave the words no other choice. -/
theorem encodeDecodeRoundTrip : Obligations.EncodeDecodeRoundTrip := by
  intro cmd arg i h
  obtain ⟨op, a, b, c, rfl⟩ := exists_eq_packCmd cmd
  by_cases hop : op ∈ opcodes
  case neg => simp [decode_of_unlisted hop] at h
  simp only [opcodes, List.mem_cons, List.not_mem_nil, or_false] at hop
  obtain rfl | rfl | rfl | rfl | rfl | rfl | rfl | rfl | rfl | rfl | rfl := hop
  · exact encode_of_oneField (decode_op_vzero a b c arg ▸ h) rfl rfl
  · obtain ⟨hbc, -, rfl⟩ := requireZero_eq_command.1 (decode_op_bget a b c arg ▸ h)
    obtain ⟨rfl, rfl⟩ : b = 0 ∧ c = 0 := by simpa using hbc
    exact ⟨rfl, rfl⟩
  · obtain ⟨hbc, -, rfl⟩ := requireZero_eq_command.1 (decode_op_bset a b c arg ▸ h)
    obtain ⟨hb, rfl⟩ : b.extractLsb' 1 7 = 0#7 ∧ c = 0 := by simpa using hbc
    exact ⟨by rw [encode, bitValue_of_upperBits hb]; rfl, rfl⟩
  · obtain ⟨-, harg, rfl⟩ := requireZero_eq_command.1 (decode_op_vxor a b c arg ▸ h)
    obtain rfl := eq_of_beq harg
    exact ⟨rfl, rfl⟩
  · obtain ⟨hc, harg, rfl⟩ := requireZero_eq_command.1 (decode_op_vcopy a b c arg ▸ h)
    obtain rfl := eq_of_beq hc
    obtain rfl := eq_of_beq harg
    exact ⟨rfl, rfl⟩
  · exact encode_of_oneField (decode_op_vload a b c arg ▸ h) rfl rfl
  · exact encode_of_oneField (decode_op_vstore a b c arg ▸ h) rfl rfl
  · exact encode_of_oneField (decode_op_swrite a b c arg ▸ h) rfl rfl
  · exact encode_of_oneField (decode_op_sread a b c arg ▸ h) rfl rfl
  · exact encode_of_oneField (decode_op_srestore a b c arg ▸ h) rfl rfl
  · rw [decode_op_csrr] at h
    split_ifs at h with hcsr
    exact encode_of_oneField h rfl (decide_eq_true hcsr)

/-- Settles O3: an opcode outside the map is item 1 of R77, and each opcode of the map leaves of items 2 to 4 those of its
row. -/
theorem illegalExactlyWhenMalformed : Obligations.IllegalExactlyWhenMalformed := by
  intro cmd arg
  obtain ⟨op, a, b, c, rfl⟩ := exists_eq_packCmd cmd
  by_cases hop : op ∈ opcodes
  case neg =>
    rw [decode_of_unlisted hop, fieldOp_packCmd]
    exact iff_of_true ⟨_, rfl⟩ (.inl hop)
  simp only [opcodes, List.mem_cons, List.not_mem_nil, or_false] at hop
  obtain rfl | rfl | rfl | rfl | rfl | rfl | rfl | rfl | rfl | rfl | rfl := hop
  all_goals simp [requireZero_illegal_iff, bothZero_eq_false_iff, bitField_eq_false_iff, csrr_illegal_iff,
    -Bool.and_eq_false_imp]

/-- Settles O4: each word is decoded on its own. -/
theorem specWordsDecode : Obligations.SpecWordsDecode := by
  unfold Obligations.SpecWordsDecode
  decide

/-! ### Transactions on a byte stream (R78, R83) -/

/-- R78: the command word alone says where a framed transaction ends. -/
theorem parseTransaction_append {n : Nat} {t : Transaction} (ht : t.payload.length = lIn n t.cmd) (rest : Bytes) :
    parseTransaction n (transactionBytes t ++ rest) = some (t, rest) := by
  have hheader : splitHeader (transactionBytes t ++ rest) = some (t.cmd, t.arg, t.payload ++ rest) := by
    rw [transactionBytes, List.append_assoc, splitHeader_header]
  simp [parseTransaction, hheader, ← ht]

/-- Settles O6, by induction on the transactions: the first is cut off, and the bytes behind it are those of the others. -/
theorem byteStreamFramesTransactions : Obligations.ByteStreamFramesTransactions := by
  intro n ts hts
  induction ts with
  | nil => rfl
  | cons t ts ih =>
    have hfirst := parseTransaction_append (hts t List.mem_cons_self) (ts.flatMap transactionBytes)
    have hothers := ih fun u hu => hts u (List.mem_cons_of_mem _ hu)
    simp [parseStream, hfirst, hothers]

end Sys2Proof.Machine

/-! PROOFS. The assembler (30_encoding.md): the pseudo-instructions of R86 on every legal build, and the words of R87. -/

namespace Sys2Proof.Machine

/-! ### The rows of the line table (R85, R86) -/

section LineTable

variable (d : Nat) (a b c : List Char)

theorem readCommand_vzero :
    readCommand d "vzero".toList [a] = do return (.vzero (← parseMember d a), []) := by rfl

theorem readCommand_vzero_nil : readCommand d "vzero".toList [] = none := by rfl

theorem readCommand_bset :
    readCommand d "bset".toList [a, b, c] =
      do return (.bset (← parseMember d a) (← parseBits 32 b) (← parseBitValue c), []) := by rfl

theorem readCommand_vxor :
    readCommand d "vxor".toList [a, b, c] =
      do return (.vxor (← parseMember d a) (← parseMember d b) (← parseMember d c), []) := by rfl

theorem readCommand_swrite :
    readCommand d "swrite".toList [a, b] = do return (.swrite (← parseBits 8 a), ← parsePayload b) := by rfl

theorem readCommand_sread :
    readCommand d "sread".toList [a] = do return (.sread (← parseBits 8 a), []) := by rfl

theorem readCommand_srestore :
    readCommand d "srestore".toList [a] = do return (.srestore (← parseMember d a), []) := by rfl

theorem readCommand_csrr :
    readCommand d "csrr".toList [a] = do return (.csrr (← parseCsr a), []) := by rfl

theorem readCommand_vxora :
    readCommand d "vxora".toList [a, b] =
      do return (expandPseudo d (.vxora (← parseMember d a) (← parseMember d b)), []) := by rfl

theorem readCommand_bclr :
    readCommand d "bclr".toList [a, b] =
      do return (expandPseudo d (.bclr (← parseMember d a) (← parseBits 32 b)), []) := by rfl

theorem readCommand_bsetv :
    readCommand d "bsetv".toList [a, b] =
      do return (expandPseudo d (.bsetv (← parseMember d a) (← parseBits 32 b)), []) := by rfl

theorem readCommand_sparity : readCommand d "sparity".toList [] = some (expandPseudo d .sparity, []) := by rfl

theorem readCommand_swritek :
    readCommand d "swritek".toList [a] = do return (expandPseudo d .swritek, ← parsePayload a) := by rfl

theorem readCommand_swritek_nil : readCommand d "swritek".toList [] = none := by rfl

theorem readCommand_sreadk : readCommand d "sreadk".toList [] = some (expandPseudo d .sreadk, []) := by rfl

theorem readCommand_vlose :
    readCommand d "vlose".toList [a] = do return (expandPseudo d (.vlose (← parseMember d a)), []) := by rfl

theorem readCommand_vlose_nil : readCommand d "vlose".toList [] = none := by rfl

theorem readCommand_caprd : readCommand d "caprd".toList [] = some (expandPseudo d .caprd, []) := by rfl

end LineTable

/-- R86: K = D-1 is a count field on every legal build. -/
theorem parseBits_count {d : Nat} (hd : Config.LegalD d) :
    parseBits 8 (decimalText (d - 1)) = some (BitVec.ofNat 8 (d - 1)) :=
  parseBits_decimalText (by omega)

/-! ### Lines by the number of their operands (R85) -/

/-- A mnemonic: some characters, none of them white space or a semicolon. -/
def isMnemonic (m : List Char) : Bool := !m.isEmpty && m.all fun c => !isBlank c && c != ';'

theorem mnemonicText_of_isMnemonic {m : List Char} (h : isMnemonic m = true) : MnemonicText m := by
  simpa [isMnemonic] using h

/-- A line without operands is read as its mnemonic. -/
theorem assembleLine_none {m : String} (n d : Nat) (hm : isMnemonic m.toList = true) :
    assembleLine n d (lineText m []) = assembleCommand n (readCommand d m.toList []) :=
  assembleLine_lineText_nil n d (mnemonicText_of_isMnemonic hm)

/-- A line with two operands or more is read as its mnemonic and its operands. -/
theorem assembleLine_many {m : String} {a b : List Char} {ops : List (List Char)} (n d : Nat)
    (hm : isMnemonic m.toList = true) (h : ∀ x ∈ a :: b :: ops, isOperandText x = true) :
    assembleLine n d (lineText m (a :: b :: ops)) =
      assembleCommand n (readCommand d m.toList ((a :: b :: ops).map trimBlanks)) := by
  rw [assembleLine_lineText n d (mnemonicText_of_isMnemonic hm) h, if_neg (by simp)]

/-- A line with one operand text, which is no operand when it is only white space. -/
theorem assembleLine_one {m : String} {a : List Char} (n d : Nat) (hm : isMnemonic m.toList = true)
    (ha : isOperandText a = true) :
    assembleLine n d (lineText m [a]) =
      assembleCommand n (readCommand d m.toList (if (trimBlanks a).isEmpty then [] else [trimBlanks a])) := by
  rw [assembleLine_lineText n d (mnemonicText_of_isMnemonic hm) (by simpa using ha)]
  simp

/-- A line with one operand text that is free of white space at its ends. -/
theorem assembleLine_one_trimmed {m : String} {a : List Char} (n d : Nat) (hm : isMnemonic m.toList = true)
    (ha : isOperandText a = true) (hne : a ≠ []) (htrim : trimBlanks a = a) :
    assembleLine n d (lineText m [a]) = assembleCommand n (readCommand d m.toList [a]) := by
  rw [assembleLine_one n d hm ha, htrim, if_neg (by simpa using hne)]

/-! ### Pseudo-instructions (R86) -/

/-- R86: a mnemonic that stands for BSET with a fixed bit value. -/
theorem assembleLine_eq_bset (n d : Nat) {m : String} {a b v : List Char} {val : Bool} (hm : isMnemonic m.toList = true)
    (hread : ∀ a b, readCommand d m.toList [a, b] =
      do return (.bset (← parseMember d a) (← parseBits 32 b) val, []))
    (hval : parseBitValue (trimBlanks v) = some val) (hv : isOperandText v = true) (ha : isOperandText a = true)
    (hb : isOperandText b = true) :
    assembleLine n d (lineText m [a, b]) = assembleLine n d (lineText "bset" [a, b, v]) := by
  rw [assembleLine_many n d hm (by simp [ha, hb]), assembleLine_many n d (by decide) (by simp [ha, hb, hv])]
  simp only [List.map_cons, List.map_nil]
  rw [hread, readCommand_bset, hval]
  rfl

theorem assembleLine_vxora (n d : Nat) {a b : List Char} (ha : isOperandText a = true) (hb : isOperandText b = true) :
    assembleLine n d (lineText "vxora" [a, b]) = assembleLine n d (lineText "vxor" [a, a, b]) := by
  rw [assembleLine_many n d (by decide) (by simp [ha, hb]), assembleLine_many n d (by decide) (by simp [ha, hb])]
  simp only [List.map_cons, List.map_nil]
  rw [readCommand_vxora, readCommand_vxor]
  cases parseMember d (trimBlanks a) <;> rfl

theorem assembleLine_bclr (n d : Nat) {a b : List Char} (ha : isOperandText a = true) (hb : isOperandText b = true) :
    assembleLine n d (lineText "bclr" [a, b]) = assembleLine n d (lineText "bset" [a, b, ['0']]) :=
  assembleLine_eq_bset n d (by decide) (readCommand_bclr d) rfl (by decide) ha hb

theorem assembleLine_bsetv (n d : Nat) {a b : List Char} (ha : isOperandText a = true) (hb : isOperandText b = true) :
    assembleLine n d (lineText "bsetv" [a, b]) = assembleLine n d (lineText "bset" [a, b, ['1']]) :=
  assembleLine_eq_bset n d (by decide) (readCommand_bsetv d) rfl (by decide) ha hb

theorem assembleLine_swritek (n : Nat) {d : Nat} (hd : Config.LegalD d) {a : List Char} (ha : isOperandText a = true) :
    assembleLine n d (lineText "swritek" [a]) = assembleLine n d (lineText "swrite" [decimalText (d - 1), a]) := by
  rw [assembleLine_one n d (by decide) ha,
    assembleLine_many n d (by decide) (by simp [ha, isOperandText_decimalText])]
  simp only [List.map_cons, List.map_nil]
  rw [trimBlanks_decimalText, readCommand_swrite, parseBits_count hd]
  split
  case isTrue hempty =>
    rw [readCommand_swritek_nil, List.isEmpty_iff.1 hempty]
    rfl
  case isFalse => rw [readCommand_swritek]; rfl

theorem assembleLine_vlose (n d : Nat) {a : List Char} (ha : isOperandText a = true) :
    assembleLine n d (lineText "vlose" [a]) = assembleLine n d (lineText "vzero" [a]) := by
  rw [assembleLine_one n d (by decide) ha, assembleLine_one n d (by decide) ha]
  split
  · rw [readCommand_vlose_nil, readCommand_vzero_nil]
  · rw [readCommand_vlose, readCommand_vzero]
    rfl

theorem assembleLine_sparity (n d : Nat) :
    assembleLine n d (lineText "sparity" []) = assembleLine n d (lineText "srestore" [['v', 'p']]) := by
  rw [assembleLine_none n d (by decide), assembleLine_one_trimmed n d (by decide) (by decide) (by decide) rfl,
    readCommand_sparity, readCommand_srestore]
  rfl

theorem assembleLine_sreadk (n : Nat) {d : Nat} (hd : Config.LegalD d) :
    assembleLine n d (lineText "sreadk" []) = assembleLine n d (lineText "sread" [decimalText (d - 1)]) := by
  rw [assembleLine_none n d (by decide), assembleLine_one_trimmed n d (by decide) (isOperandText_decimalText _)
    (decimalText_ne_nil _) (trimBlanks_decimalText _), readCommand_sreadk, readCommand_sread, parseBits_count hd]
  rfl

theorem assembleLine_caprd (n d : Nat) :
    assembleLine n d (lineText "caprd" []) = assembleLine n d (lineText "csrr" ["CAP".toList]) := by
  rw [assembleLine_none n d (by decide), assembleLine_one_trimmed n d (by decide) (by decide) (by decide) rfl,
    readCommand_caprd, readCommand_csrr]
  rfl

/-- Settles O8, mnemonic by mnemonic. -/
theorem pseudoLinesExpand : Obligations.PseudoLinesExpand :=
  fun n d _ _ hd ha hb =>
    ⟨assembleLine_vxora n d ha hb, assembleLine_bclr n d ha hb, assembleLine_bsetv n d ha hb, assembleLine_sparity n d,
      assembleLine_swritek n hd ha, assembleLine_sreadk n hd, assembleLine_vlose n d ha, assembleLine_caprd n d⟩

/-! ### The words of the stripe pseudo-instructions (R86, R87) -/

/-- R85: a command whose operand `A` is K assembles to the word `OP + 256 * K`, with the payload it asks for. -/
theorem assembleCommand_stripe (n : Nat) {d op : Nat} (hd : Config.LegalD d) (hop : op < 256) {i : Instr} (p : Bytes)
    (hi : encode i = (packCmd (BitVec.ofNat 8 op) (BitVec.ofNat 8 (d - 1)) 0 0, 0)) :
    assembleCommand n (some (i, p)) =
      if p.length = payloadLength n i then .command ⟨BitVec.ofNat 32 (op + 256 * (d - 1)), 0, p⟩ else .refused := by
  rw [assembleCommand, hi, packCmd_ofNat hop (by omega)]

/-- Settles O53: each line is read as its expansion, whose operand is K = D-1. -/
theorem stripePseudoLinesEncode : Obligations.StripePseudoLinesEncode := by
  intro n d hd
  refine ⟨?_, ?_, fun p => ?_⟩
  · rw [assembleLine_none n d (by decide), readCommand_sparity, assembleCommand_stripe n hd (by decide) [] rfl, if_pos]
    exact (payloadLength_srestore n _).symm
  · rw [assembleLine_none n d (by decide), readCommand_sreadk, assembleCommand_stripe n hd (by decide) [] rfl, if_pos]
    exact (payloadLength_sread n _).symm
  · have hlen : payloadLength n (expandPseudo d .swritek) = (d - 1) * n := by
      rw [expandPseudo, payloadLength_swrite, BitVec.toNat_ofNat, Nat.mod_eq_of_lt (by omega)]
    rw [assembleLine_one_trimmed n d (by decide) (isOperandText_payloadText p) (List.cons_ne_nil _ _)
      (trimBlanks_payloadText p), readCommand_swritek, parsePayload_payloadText, ← hlen]
    exact assembleCommand_stripe n hd (by decide) p rfl

/-- Settles O7: the twelve lines of R87, each assembled on its own. -/
theorem assemblerGivesSpecWords : Obligations.AssemblerGivesSpecWords := by
  unfold Obligations.AssemblerGivesSpecWords
  decide

end Sys2Proof.Machine

/-! PROOFS. What the engine answers (30_encoding.md): the response word (R80), the output payload (R79) and the value word
(R81). -/

namespace Sys2Proof.Machine

/-! ### What a response says (R79, R80, R81) -/

/-- R80: the fields of a response word. -/
theorem respWord_fields (outcome : RespOutcome) (code : BitVec 4) :
    (respWord outcome code).extractLsb' 0 2 = outcomeNumber outcome ∧ (respWord outcome code).extractLsb' 2 2 = 0 ∧
    (respWord outcome code).extractLsb' 4 4 = code ∧ (respWord outcome code).extractLsb' 8 24 = 0 := by
  cases outcome <;> decide +revert

theorem respWord_ne_zero {outcome : RespOutcome} (h : outcome ≠ .ok) (code : BitVec 4) : respWord outcome code ≠ 0 := by
  intro h0
  obtain ⟨houtcome, -⟩ := respWord_fields outcome code
  rw [h0] at houtcome
  cases outcome with
  | ok => exact h rfl
  | fault => exact absurd houtcome (by decide)
  | refused => exact absurd houtcome (by decide)

theorem eq_of_outbox_eq {s s' : State} {r r' : Response} (h : s'.outbox = s.outbox ++ [r])
    (h' : s'.outbox = s.outbox ++ [r']) : r = r' := by
  simpa [h] using h'

/-- R174, R175: the response to a transaction: refused while faulted, a fault of the running engine, or the value word and the
output of a command that completed. -/
theorem response_cases {s s' : State} {t : Transaction} {rest : List HostEvent} {r : Response}
    (hin : s.inbox = .submit t :: rest) (h : step s = .next s') (hout : s'.outbox = s.outbox ++ [r]) :
    (s.faulted = true ∧ r = ⟨respWord .refused s.fcode, 0, []⟩) ∨
    (s.faulted = false ∧ s'.faulted = true ∧ r = ⟨respWord .fault s'.fcode, 0, []⟩) ∨
    ∃ i, decode t.cmd t.arg = .command i ∧ precheck s i = none ∧ r = ⟨respWord .ok 0, newValue s i, newOutput s i⟩ := by
  obtain ⟨hnil, -⟩ | ⟨_, hreset, -⟩ | ⟨u, q, hsub, hcases⟩ := step_cases h
  · simp [hin] at hnil
  · simp [hin] at hreset
  · obtain ⟨rfl, rfl⟩ : t = u ∧ rest = q := by simpa [hin] using hsub
    obtain ⟨hf, -, rfl⟩ | ⟨hf, c, rfl⟩ | ⟨i, hd, -, -, hc, rfl⟩ := hcases
    · exact .inl ⟨hf, eq_of_outbox_eq hout rfl⟩
    · obtain ⟨-, -, hcode, -⟩ := respWord_fields .fault (faultNumber c)
      have hfcode : (faultedWith s rest t (faultNumber c)).fcode = faultNumber c := hcode
      exact .inr (.inl ⟨hf, faulted_faultedWith s rest t _, eq_of_outbox_eq hout (by rw [hfcode]; rfl)⟩)
    · exact .inr (.inr ⟨i, hd, hc, eq_of_outbox_eq hout rfl⟩)

/-- R80: RESP = 0 says that the command completed; any other response carries no value and no output. -/
theorem response_ok_or_empty {s s' : State} {t : Transaction} {rest : List HostEvent} {r : Response}
    (hin : s.inbox = .submit t :: rest) (h : step s = .next s') (hout : s'.outbox = s.outbox ++ [r]) :
    (r.resp ≠ 0 ∧ r.rval = 0 ∧ r.payload = []) ∨
    ∃ i, decode t.cmd t.arg = .command i ∧ precheck s i = none ∧ r = ⟨0, newValue s i, newOutput s i⟩ := by
  obtain ⟨-, rfl⟩ | ⟨-, -, rfl⟩ | hok := response_cases hin h hout
  · exact .inl ⟨respWord_ne_zero (by decide) _, rfl, rfl⟩
  · exact .inl ⟨respWord_ne_zero (by decide) _, rfl, rfl⟩
  · exact .inr hok

/-- Settles O23: each of the three responses has the fields of its word. -/
theorem responseWordFields : Obligations.ResponseWordFields := by
  intro s s' t rest r hin h hout
  obtain ⟨hf, rfl⟩ | ⟨hf, hf', rfl⟩ | ⟨i, -, -, rfl⟩ := response_cases hin h hout
  · obtain ⟨houtcome, hlow, hcode, hhigh⟩ := respWord_fields .refused s.fcode
    exact ⟨hlow, hhigh, .inr (.inr ⟨houtcome, fun hrun => Bool.noConfusion (hrun.symm.trans hf), hcode⟩)⟩
  · obtain ⟨houtcome, hlow, hcode, hhigh⟩ := respWord_fields .fault s'.fcode
    exact ⟨hlow, hhigh, .inr (.inl ⟨houtcome, hf, fun hrun => Bool.noConfusion (hrun.symm.trans hf'), hcode⟩)⟩
  · obtain ⟨houtcome, hlow, hcode, hhigh⟩ := respWord_fields .ok 0
    exact ⟨hlow, hhigh, .inl ⟨houtcome, hcode⟩⟩

/-- R134: the output of SREAD is K*N bytes. -/
theorem readData_length {s : State} (hs : WellSized s) : s.readData.length = s.k * s.n := by
  have hslot : ∀ m ∈ List.range s.k, (s.member m).length = s.n := fun m hm =>
    member_length hs (lt_of_lt_of_le (List.mem_range.1 hm) (Nat.sub_le s.d 1))
  rw [State.readData, List.length_flatMap, List.map_congr_left hslot]
  simp

/-- Settles O24: only VSTORE and SREAD have an output, of the length of the members they emit. -/
theorem outputPayloadLength : Obligations.OutputPayloadLength := by
  intro s s' t rest r hs hin h hout
  obtain ⟨-, -, hsize, -⟩ := hs
  obtain ⟨hresp, -, hempty⟩ | ⟨i, hd, hc, rfl⟩ := response_ok_or_empty hin h hout
  · exact ⟨fun h0 => absurd h0 hresp, fun h0 => absurd h0 hresp, fun _ => hempty⟩
  rw [hd]
  refine ⟨?_, ?_, ?_⟩
  · rintro - vs ⟨⟩
    exact member_length hsize (checkMember_eq_none.1 hc)
  · rintro - cnt ⟨⟩
    exact ⟨readData_length hsize, checkCount_eq_none.1 hc⟩
  · rintro (h0 | ⟨hvstore, hsread⟩)
    · exact absurd rfl h0
    · cases i with
      | vstore vs => exact absurd rfl (hvstore vs)
      | sread cnt => exact absurd rfl (hsread cnt)
      | _ => rfl

/-- R81: the value of a defined register. -/
theorem csrRead_eq_newValue (s : State) {csr : Byte} (h : csrDefined csr) :
    s.csrRead csr = some (newValue s (.csrr csr)) := by
  obtain ⟨value, hvalue⟩ := Option.isSome_iff_exists.1 ((csrRead_isSome s csr).2 h)
  simp [newValue, hvalue]

/-- Settles O25: only BGET and CSRR have a value word. -/
theorem responseValueWord : Obligations.ResponseValueWord := by
  intro s s' t rest r hin h hout
  obtain ⟨hresp, hzero, -⟩ | ⟨i, hd, -, rfl⟩ := response_ok_or_empty hin h hout
  · exact ⟨fun h0 => absurd h0 hresp, fun h0 => absurd h0 hresp, fun _ => hzero⟩
  refine ⟨?_, ?_, ?_⟩
  · intro _ vs x hbget
    obtain rfl : i = .bget vs x := by simpa [hd] using hbget
    exact readBit_eq _ _
  · intro _ csr hcsrr
    obtain rfl : i = .csrr csr := by simpa [hd] using hcsrr
    exact csrRead_eq_newValue s (decode_csrr_defined hd)
  · rw [hd]
    rintro (h0 | ⟨hbget, hcsrr⟩)
    · exact absurd rfl h0
    · cases i with
      | bget vs x => exact absurd rfl (hbget vs x)
      | csrr csr => exact absurd rfl (hcsrr csr)
      | _ => rfl

end Sys2Proof.Machine

/-! PROOFS. The bit-vector commands (40_bitvector.md): what VZERO, BGET, BSET, VXOR, VCOPY, VLOAD and VSTORE do when they
complete (R100 to R112), the algebra of XOR (R107), and what is read right after a write (R105, R113). -/

namespace Sys2Proof.Machine

/-! ### The algebra of vectors (R107) -/

theorem xorVec_assoc (x y z : Bytes) : xorVec (xorVec x y) z = xorVec x (xorVec y z) :=
  List.ext_getElem (by simp [Nat.min_assoc]) fun j _ _ => by simp [xorVec, BitVec.xor_assoc]

theorem xorVec_comm (x y : Bytes) : xorVec x y = xorVec y x :=
  List.zipWith_comm_of_comm BitVec.xor_comm

theorem xorVec_self (x : Bytes) : xorVec x x = zeroVec x.length :=
  List.ext_getElem (by simp) fun j _ _ => by simp [xorVec, zeroVec]

theorem xorVec_zeroVec (x : Bytes) : xorVec x (zeroVec x.length) = x :=
  List.ext_getElem (by simp) fun j _ _ => by simp [xorVec, zeroVec]

/-- Settles O40: each law is that of XOR on one byte. -/
theorem xorAlgebra : Obligations.XorAlgebra := by
  rintro n x y z rfl - -
  exact ⟨xorVec_assoc x y z, xorVec_comm x y, xorVec_self x, xorVec_zeroVec x⟩

/-! ### Completion (R174) -/

/-- R174: `exec_completes` for a command whose payload length is known as a number of bytes. -/
theorem exec_completes_of_serves {i : Instr} {s : State} {t : Transaction} {rest : List HostEvent} {len : Nat}
    (hs : Serves s t rest len) (hlen : payloadLength s.n i = len) (hr : Running s) (hi : ∀ csr, i ≠ .csrr csr)
    (hc : precheck s i = none) :
    exec i s = .next (completedWith s rest (newMembers s t.payload i) (newValue s i) (newOutput s i)) :=
  exec_completes hi (by rwa [hlen]) hr hc

/-- R110: chunk 0 of a payload of N bytes is all of it. -/
theorem payloadIn_zero {n : Nat} {payload : Bytes} (h : payload.length = n) : payloadIn n payload 0 = payload := by
  simp [payloadIn, ← h]

/-! ### What each command does when it completes (R100 to R112) -/

/-- Settles O26: the only check is that the member exists. -/
theorem vzeroResult : Obligations.VzeroResult := by
  intro s t rest vd hs hr hd
  exact exec_completes_of_serves hs (payloadLength_vzero _ _) hr nofun (checkMember_none hd)

/-- Settles O27: shift and mask read the bit. -/
theorem bgetResult : Obligations.BgetResult := by
  intro s t rest vs i hs hr hd hi
  have hc : precheck s (.bget vs i) = none := by simp [precheck, checkMember_none hd, checkBit_none hi]
  have hvalue : newValue s (.bget vs i) = if bitAt (s.member vs.toNat) i.toNat then 1 else 0 := readBit_eq _ _
  rw [exec_completes_of_serves hs (payloadLength_bget _ _ _) hr nofun hc, hvalue]
  rfl

/-- Settles O28: the vector is the member with one bit written. -/
theorem bsetResult : Obligations.BsetResult := by
  intro s t rest vd i val ⟨_, _, hsize, _⟩ hs hr hd hi
  have hlen : (s.member vd.toNat).length = s.n := member_length hsize hd
  have hc : precheck s (.bset vd i val) = none := by simp [precheck, checkMember_none hd, checkBit_none hi]
  exact ⟨writeBit (s.member vd.toNat) i val, (writeBit_length _ _ _).trans hlen,
    fun x _ => bitAt_writeBit _ i val (by rwa [hlen]) x,
    exec_completes_of_serves hs (payloadLength_bset _ _ _ _) hr nofun hc⟩

/-- R106: VXOR completes for members that exist, and writes the XOR of its sources as they were. -/
theorem exec_vxor {s : State} {t : Transaction} {rest : List HostEvent} {vd va vb : Byte} (hs : Serves s t rest 0)
    (hr : Running s) (hd : vd.toNat < s.d) (ha : va.toNat < s.d) (hb : vb.toNat < s.d) :
    exec (.vxor vd va vb) s = .next
      (completedWith s rest (s.members.set vd.toNat (xorVec (s.member va.toNat) (s.member vb.toNat))) 0 []) := by
  have hc : precheck s (.vxor vd va vb) = none := by
    simp [precheck, checkMember_none hd, checkMember_none ha, checkMember_none hb]
  exact exec_completes_of_serves hs (payloadLength_vxor _ _ _ _) hr nofun hc

/-- Settles O29: XOR of vectors of one length is XOR of each byte. -/
theorem vxorResult : Obligations.VxorResult := by
  intro s t rest vd va vb ⟨_, _, hsize, _⟩ hs hr hd ha hb
  have hla : (s.member va.toNat).length = s.n := member_length hsize ha
  have hlb : (s.member vb.toNat).length = s.n := member_length hsize hb
  exact ⟨xorVec (s.member va.toNat) (s.member vb.toNat), by rw [xorVec_length, hla, hlb, Nat.min_self],
    fun j _ => byteAt_xorVec _ _ j (hla.trans hlb.symm), exec_vxor hs hr hd ha hb⟩

/-- Settles O30: a vector is its own inverse (R107). -/
theorem vxorSameSourcesZeroes : Obligations.VxorSameSourcesZeroes := by
  intro s t rest vd va ⟨_, _, hsize, _⟩ hs hr hd ha
  rw [exec_vxor hs hr hd ha ha, xorVec_self, member_length hsize ha]
  rfl

/-- Settles O31: the checks are that both members exist. -/
theorem vcopyResult : Obligations.VcopyResult := by
  intro s t rest vd vs hs hr hd hvs
  have hc : precheck s (.vcopy vd vs) = none := by simp [precheck, checkMember_none hd, checkMember_none hvs]
  exact exec_completes_of_serves hs (payloadLength_vcopy _ _ _) hr nofun hc

/-- Settles O32: the one chunk of the payload is the payload. -/
theorem vloadResult : Obligations.VloadResult := by
  intro s t rest vd hs hr hd
  have hmembers : newMembers s t.payload (.vload vd) = s.members.set vd.toNat t.payload :=
    congrArg (s.members.set vd.toNat) (payloadIn_zero hs.2)
  rw [exec_completes_of_serves hs (payloadLength_vload _ _) hr nofun (checkMember_none hd), hmembers]
  rfl

/-- Settles O33: the only check is that the member exists. -/
theorem vstoreResult : Obligations.VstoreResult := by
  intro s t rest vs hs hr hd
  exact exec_completes_of_serves hs (payloadLength_vstore _ _) hr nofun (checkMember_none hd)

/-! ### A read right after a write (R105, R113) -/

section AfterWrite

variable {s : State} {vd : Byte} {v : Bytes} {u : Transaction} {rest : List HostEvent}

/-- The state a command leaves that wrote `v` to member `vd`, with `q` still to be served. -/
def afterWrite (s : State) (q : List HostEvent) (vd : Byte) (v : Bytes) : State :=
  completedWith s q (s.members.set vd.toNat v) 0 []

theorem member_afterWrite_self (hsize : WellSized s) (hd : vd.toNat < s.d) (q : List HostEvent) :
    (afterWrite s q vd v).member vd.toNat = v :=
  member_setMember_self v (hsize.1 ▸ hd)

theorem member_afterWrite_ne (s : State) (q : List HostEvent) (v : Bytes) {m : Nat} (h : m ≠ vd.toNat) :
    (afterWrite s q vd v).member m = s.member m :=
  member_setMember_ne s v h.symm

theorem bget_afterWrite (hsize : WellSized s) (hu : u.payload = []) (hr : Running s) (hd : vd.toNat < s.d) {i : Word}
    (hi : i.toNat < 8 * s.n) :
    exec (.bget vd i) (afterWrite s (.submit u :: rest) vd v) =
      .next (completedWith (afterWrite s (.submit u :: rest) vd v) rest (s.members.set vd.toNat v)
        (if bitAt v i.toNat then 1 else 0) []) := by
  have h := bgetResult (afterWrite s (.submit u :: rest) vd v) u rest vd i ⟨rfl, by rw [hu]; rfl⟩ hr hd hi
  rwa [member_afterWrite_self hsize hd] at h

theorem vstore_afterWrite (hsize : WellSized s) (hu : u.payload = []) (hr : Running s) (hd : vd.toNat < s.d) :
    exec (.vstore vd) (afterWrite s (.submit u :: rest) vd v) =
      .next (completedWith (afterWrite s (.submit u :: rest) vd v) rest (s.members.set vd.toNat v) 0 v) := by
  have h := vstoreResult (afterWrite s (.submit u :: rest) vd v) u rest vd ⟨rfl, by rw [hu]; rfl⟩ hr hd
  rwa [member_afterWrite_self hsize hd] at h

/-- The responses of a write and of the read right after it, in order (R54). -/
theorem outbox_read_afterWrite (s : State) (q rest : List HostEvent) (vd : Byte) (v : Bytes) (ms : List Bytes)
    (rval : Word) (out : Bytes) :
    (completedWith (afterWrite s q vd v) rest ms rval out).outbox = s.outbox ++ [⟨0, 0, []⟩, ⟨0, rval, out⟩] := by
  simp [afterWrite]

end AfterWrite

/-- Settles O39: BGET reads the member BSET has just written. -/
theorem bitRoundTrip : Obligations.BitRoundTrip := by
  intro s t u rest vd i val hs hin ht hu hr hd hi
  obtain ⟨v, -, hbits, hset⟩ := bsetResult s t _ vd i val hs ⟨hin, by rw [ht]; rfl⟩ hr hd hi
  have ⟨_, _, hsize, _⟩ := hs
  have hself : (afterWrite s (.submit u :: rest) vd v).member vd.toNat = v := member_afterWrite_self hsize hd _
  have hbit : bitAt v i.toNat = val := by rw [hbits _ hi, if_pos rfl]
  have hother : ∀ x < 8 * s.n, x ≠ i.toNat → bitAt v x = bitAt (s.member vd.toNat) x := fun x hx hne => by
    rw [hbits x hx, if_neg hne]
  refine ⟨afterWrite s (.submit u :: rest) vd v, _, hset, bget_afterWrite hsize hu hr hd hi, ?_, ?_, ?_,
    fun m => member_afterWrite_ne s _ v, rfl⟩
  · rw [outbox_read_afterWrite, hbit]
  · rw [hself, hbit]
  · rwa [hself]

/-- Settles O41: VSTORE emits the member as VLOAD or BSET has just left it. -/
theorem rawViewRoundTrip : Obligations.RawViewRoundTrip := by
  intro s t u rest vd hs hin hu hr hd
  have ⟨_, _, hsize, _⟩ := hs
  refine ⟨fun hlen => ?_, fun ht i val hi => ?_⟩
  · have hload := vloadResult s t _ vd ⟨hin, hlen⟩ hr hd
    exact ⟨afterWrite s (.submit u :: rest) vd t.payload, _, hload, vstore_afterWrite hsize hu hr hd,
      outbox_read_afterWrite ..⟩
  · obtain ⟨v, -, hbits, hset⟩ := bsetResult s t _ vd i val hs ⟨hin, by rw [ht]; rfl⟩ hr hd hi
    have hbit : bitAt v i.toNat = val := by rw [hbits _ hi, if_pos rfl]
    exact ⟨afterWrite s (.submit u :: rest) vd v, _, v, hset, vstore_afterWrite hsize hu hr hd,
      outbox_read_afterWrite .., hbit⟩

end Sys2Proof.Machine

/-! PROOFS. The stripe commands (41_stripe.md): the XOR of every member but one (R132, R136, R138), what SWRITE, SREAD and
SRESTORE do when they complete (R131 to R138), and the laws of the stripe (R133, R139, R140, R143). -/

namespace Sys2Proof.Machine

/-! ### Vectors and members under XOR (R13, R107) -/

theorem zeroVec_xorVec {n : Nat} {x : Bytes} (hx : x.length = n) : xorVec (zeroVec n) x = x := by
  rw [xorVec_comm, ← hx, xorVec_zeroVec]

/-- R107: two vectors cancel exactly when they are the same. -/
theorem xorVec_eq_zeroVec_iff {n : Nat} {x y : Bytes} (hx : x.length = n) (hy : y.length = n) :
    xorVec x y = zeroVec n ↔ x = y := by
  constructor
  · intro h
    calc x = xorVec x (zeroVec n) := by rw [← hx, xorVec_zeroVec]
      _ = xorVec x (xorVec y y) := by rw [xorVec_self, hy]
      _ = xorVec (zeroVec n) y := by rw [← xorVec_assoc, h]
      _ = y := zeroVec_xorVec hy
  · rintro rfl
    rw [xorVec_self, hx]

theorem xorMembers_concat (s : State) (js : List Nat) (j : Nat) :
    s.xorMembers (js ++ [j]) = xorVec (s.xorMembers js) (s.member j) := by
  simp [State.xorMembers]

/-- R13, R107: the order in which members are accumulated does not matter. -/
theorem xorMembers_perm (s : State) {js ks : List Nat} (h : js.Perm ks) : s.xorMembers js = s.xorMembers ks :=
  h.foldl_eq' (fun x _ y _ acc => by
    rw [xorVec_assoc, xorVec_comm (s.member x), ← xorVec_assoc]) _

/-! ### Every member but one (R138) -/

/-- R138: the members of a stripe of `d` members, but for member `i`. -/
def others (d i : Nat) : List Nat := (List.range d).filter fun m => m ≠ i

theorem mem_others {d i m : Nat} : m ∈ others d i ↔ m < d ∧ m ≠ i := by
  simp [others]

theorem others_perm {d i : Nat} (hi : i < d) : (others d i ++ [i]).Perm (List.range d) := by
  have herase : (List.range d).erase i = others d i := by
    rw [List.nodup_range.erase_eq_filter, others]
    exact List.filter_congr fun m _ => by simp [bne, beq_eq_decide]
  have hcons := List.perm_cons_erase (List.mem_range.2 hi)
  rw [herase] at hcons
  exact (List.perm_append_singleton i (others d i)).trans hcons.symm

/-- The members but for the last are those before it. -/
theorem others_last (k : Nat) : others (k + 1) k = List.range k := by
  rw [others, List.range_succ, List.filter_append, List.filter_eq_self.2 fun m hm => by
    simpa using (List.mem_range.1 hm).ne]
  simp

/-- For any other member the last one is still there. -/
theorem others_of_lt {k i : Nat} (hi : i < k) :
    others (k + 1) i = ((List.range k).filter fun m => m ≠ i) ++ [k] := by
  simp [others, List.range_succ, hi.ne']

/-- R132, R138: Parity(M) is the XOR of every member but the parity member. -/
theorem parity_eq_xorMembers_others {s : State} (hd : 0 < s.d) : s.parity = s.xorMembers (others s.d (s.d - 1)) := by
  rw [← Nat.sub_one_add_one hd.ne', Nat.add_sub_cancel, others_last]
  rfl

/-- R136, R138: Recon(M, i) of a data member is the XOR of every other member. -/
theorem recon_eq_xorMembers_others {s : State} {i : Nat} (hi : i < s.d - 1) :
    s.recon i = s.xorMembers (others s.d i) := by
  have hd : s.d = s.p + 1 := by unfold State.p; omega
  rw [hd, others_of_lt (k := s.p) hi, xorMembers_concat, xorVec_comm]
  rfl

/-- R138: what SRESTORE writes, either way, is the XOR of every other member. -/
theorem restored_eq_xorMembers_others {s : State} {i : Nat} (hi : i < s.d) :
    (if i = s.p then s.parity else s.recon i) = s.xorMembers (others s.d i) := by
  split
  case isTrue h =>
    rw [h]
    exact parity_eq_xorMembers_others (by omega)
  case isFalse h =>
    unfold State.p at h
    exact recon_eq_xorMembers_others (by omega)

theorem xorMembers_others_length {s : State} (hs : WellSized s) (i : Nat) :
    (s.xorMembers (others s.d i)).length = s.n :=
  xorMembers_length hs fun _ hm => (mem_others.1 hm).1

/-- R136: the XOR of the others does not read the member left out. -/
theorem xorMembers_others_setMember (s : State) (d i : Nat) (v : Bytes) :
    (s.setMember i v).xorMembers (others d i) = s.xorMembers (others d i) :=
  xorMembers_congr rfl fun _ hm => member_setMember_ne s v (mem_others.1 hm).2.symm

/-- R15, R138: a stripe is clean exactly when a member, any one, is the XOR of the others. -/
theorem clean_iff_member_eq {s : State} (hs : WellSized s) {i : Nat} (hi : i < s.d) :
    Clean s ↔ s.member i = s.xorMembers (others s.d i) := by
  rw [Clean, ← xorMembers_perm s (others_perm hi), xorMembers_concat,
    xorVec_eq_zeroVec_iff (xorMembers_others_length hs i) (member_length hs hi), eq_comm]

/-- R137, R138: writing a member the XOR of the others makes the stripe clean. -/
theorem clean_setMember_others {s : State} (hs : WellSized s) {i : Nat} (hi : i < s.d) :
    Clean (s.setMember i (s.xorMembers (others s.d i))) := by
  refine (clean_iff_member_eq (wellSized_setMember hs i (xorMembers_others_length hs i)) hi).2 ?_
  rw [member_setMember_self _ (hs.1 ▸ hi)]
  exact (xorMembers_others_setMember s s.d i _).symm

theorem set_member_self (s : State) (m : Nat) : s.members.set m (s.member m) = s.members := by
  by_cases hm : m < s.members.length
  · simp [State.member, List.getD_eq_getElem?_getD, hm]
  · exact List.set_eq_of_length_le (not_lt.1 hm)

/-! ### Parity(M) (R132) -/

/-- R132: a byte of the parity is the XOR of that byte of each data member. -/
theorem byteAt_parity {s : State} (hs : WellSized s) (j : Nat) :
    byteAt s.parity j = xorBytes ((List.range (s.d - 1)).map fun k => byteAt (s.member k) j) :=
  byteAt_xorMembers hs (fun _ hk => lt_of_lt_of_le (List.mem_range.1 hk) (Nat.sub_le s.d 1)) j

/-- Settles O42: Parity(M) is the XOR of the members it lists, which are the data slots. -/
theorem parityReadsOnlyData : Obligations.ParityReadsOnlyData := by
  intro s ⟨_, _, hsize, _⟩
  refine ⟨parity_length hsize, fun j _ => byteAt_parity hsize j, fun u hn hd hdata => ?_⟩
  have hk : u.k = s.k := by rw [State.k, State.k, hd]
  rw [State.parity, State.parity, hk]
  exact xorMembers_congr hn fun k hk => hdata k (List.mem_range.1 hk)

/-! ### SRESTORE (R137 to R140) -/

section Srestore

variable {s : State} {t : Transaction} {rest : List HostEvent} {idx : Byte}

/-- R137, R138: SRESTORE completes for a member that exists, and writes it the XOR of the others. -/
theorem exec_srestore (hs : Serves s t rest 0) (hr : Running s) (hd : idx.toNat < s.d) :
    exec (.srestore idx) s = .next (afterWrite s rest idx (s.xorMembers (others s.d idx.toNat))) := by
  rw [exec_completes_of_serves hs (payloadLength_srestore _ _) hr nofun (checkMember_none hd), newMembers,
    restored_eq_xorMembers_others hd]
  rfl

/-- R136, R137: whatever the member held, SRESTORE leaves the same. -/
theorem exec_srestore_setMember (hs : Serves s t rest 0) (hr : Running s) (hd : idx.toNat < s.d) (v : Bytes) :
    exec (.srestore idx) (s.setMember idx.toNat v) =
      .next (afterWrite s rest idx (s.xorMembers (others s.d idx.toNat))) := by
  have h : exec (.srestore idx) (s.setMember idx.toNat v) = .next (afterWrite (s.setMember idx.toNat v) rest idx
      ((s.setMember idx.toNat v).xorMembers (others s.d idx.toNat))) := exec_srestore hs hr hd
  rw [h, xorMembers_others_setMember]
  simp [afterWrite, completedWith, State.setMember]

/-- R139: a clean stripe that has lost a member is restored. -/
theorem exec_srestore_lost (hsize : WellSized s) (hclean : Clean s) (hs : Serves s t rest 0) (hr : Running s)
    (hd : idx.toNat < s.d) (v : Bytes) :
    exec (.srestore idx) (s.setMember idx.toNat v) = .next (completedWith s rest s.members 0 []) := by
  rw [exec_srestore_setMember hs hr hd v, ← (clean_iff_member_eq hsize hd).1 hclean, afterWrite, set_member_self]

end Srestore

/-- Settles O36: the value is the XOR of the others, which is Parity(M) or Recon(M, idx) by the index. -/
theorem srestoreXorsTheOthers : Obligations.SrestoreXorsTheOthers := by
  intro s t rest idx ⟨_, _, hsize, _⟩ hs hr hd
  refine ⟨s.xorMembers (others s.d idx.toNat), xorMembers_others_length hsize _,
    fun j _ => byteAt_xorMembers hsize (fun m hm => (mem_others.1 hm).1) j, fun hp => ?_, fun hp => ?_,
    exec_srestore hs hr hd⟩
  · rw [hp, parity_eq_xorMembers_others (by omega)]
  · rw [recon_eq_xorMembers_others hp]

/-- Settles O45: SRESTORE leaves the same with any value in its target. -/
theorem srestoreNeverReadsItsTarget : Obligations.SrestoreNeverReadsItsTarget := by
  intro s t rest idx v _ hs hr hd
  exact ⟨_, exec_srestore hs hr hd, exec_srestore_setMember hs hr hd v⟩

/-- Settles O46: in a clean stripe the XOR of the others is the lost member. -/
theorem singleLossIsRestored : Obligations.SingleLossIsRestored := by
  intro s t rest idx v ⟨_, _, hsize, _⟩ hclean _ hs hr hd
  exact exec_srestore_lost hsize hclean hs hr hd v

/-- Settles O47: the others of the parity member are the data members, and what is written makes the stripe clean. -/
theorem parityIsRestored : Obligations.ParityIsRestored := by
  intro s t rest idx ⟨_, ⟨hd, _⟩, hsize, _⟩ hs hr hp
  have hidx : idx.toNat < s.d := by omega
  have hparity : s.xorMembers (others s.d idx.toNat) = s.parity := by rw [hp, parity_eq_xorMembers_others (by omega)]
  refine ⟨_, exec_srestore hs hr hidx, clean_setMember_others hsize hidx, fun j _ => ?_,
    fun m hm => member_afterWrite_ne s rest _ (by omega)⟩
  rw [← byteAt_parity hsize, ← hparity, ← hp]
  exact congrArg (byteAt · j) (member_afterWrite_self hsize hidx rest)

/-! ### SWRITE (R131 to R133) -/

/-- R131: the first K chunks of a payload, one behind the other. -/
theorem flatMap_payloadIn (n : Nat) (payload : Bytes) (K : Nat) :
    (List.range K).flatMap (payloadIn n payload) = payload.take (K * n) := by
  induction K with
  | zero => simp
  | succ K ih => simp [List.range_succ, ih, payloadIn, Nat.succ_mul, List.take_add]

/-- The state SWRITE leaves when it completes, with `rest` still to be served. -/
def afterSwrite (s : State) (rest : List HostEvent) (cnt : Byte) (payload : Bytes) : State :=
  completedWith s rest (newMembers s payload (.swrite cnt)) 0 []

section Swrite

variable {s : State} {t : Transaction} {rest : List HostEvent} {cnt : Byte}

theorem exec_swrite (hs : Serves s t rest (cnt.toNat * s.n)) (hr : Running s) (hc : cnt.toNat = s.d - 1) :
    exec (.swrite cnt) s = .next (afterSwrite s rest cnt t.payload) :=
  exec_completes_of_serves hs (payloadLength_swrite _ _) hr nofun (checkCount_none hc)

variable {payload : Bytes} (rest)

theorem wellSized_afterSwrite (hsize : WellSized s) (hc : cnt.toNat = s.d - 1)
    (hlen : payload.length = cnt.toNat * s.n) : WellSized (afterSwrite s rest cnt payload) :=
  wellSized_swrite hsize (by rw [hlen, hc]; rfl)

/-- R131: a data slot holds its chunk. -/
theorem member_afterSwrite_data (hsize : WellSized s) (payload : Bytes) {k : Nat} (hk : k < s.d - 1) :
    (afterSwrite s rest cnt payload).member k = payloadIn s.n payload k := by
  have hp : k ≠ s.p := hk.ne
  exact (newMembers_swrite_getD hsize.1 payload cnt (by omega)).trans (if_neg hp)

/-- R132: the parity slot holds the parity of the stripe SWRITE leaves. -/
theorem member_afterSwrite_parity (hsize : WellSized s) (hd : 2 ≤ s.d) (payload : Bytes) :
    (afterSwrite s rest cnt payload).member (s.d - 1) = (afterSwrite s rest cnt payload).parity := by
  have hslots : ∀ k ∈ List.range (s.d - 1),
      (s.writeData payload).member k = (afterSwrite s rest cnt payload).member k := fun k hk => by
    have hk' : k < s.k := List.mem_range.1 hk
    rw [member_afterSwrite_data rest hsize payload hk', writeData_member hsize.1, if_pos hk']
  have hparity : (s.writeData payload).parity = (afterSwrite s rest cnt payload).parity := by
    rw [State.parity, State.k, State.writeData_d]
    exact xorMembers_congr (by simp [afterSwrite]) hslots
  rw [← hparity]
  exact (newMembers_swrite_getD hsize.1 payload cnt (by omega)).trans (if_pos rfl)

/-- R133: SWRITE leaves a clean stripe. -/
theorem clean_afterSwrite (hsize : WellSized s) (hd : 2 ≤ s.d) (hc : cnt.toNat = s.d - 1)
    (hlen : payload.length = cnt.toNat * s.n) : Clean (afterSwrite s rest cnt payload) := by
  have hp : s.d - 1 < (afterSwrite s rest cnt payload).d := by
    show s.d - 1 < s.d
    omega
  refine (clean_iff_member_eq (wellSized_afterSwrite rest hsize hc hlen) hp).2 ?_
  rw [member_afterSwrite_parity rest hsize hd]
  exact parity_eq_xorMembers_others (Nat.zero_lt_of_lt hp)

/-- R131, R134: what SREAD reads after SWRITE is the payload. -/
theorem readData_afterSwrite (hsize : WellSized s) (hc : cnt.toNat = s.d - 1)
    (hlen : payload.length = cnt.toNat * s.n) : (afterSwrite s rest cnt payload).readData = payload := by
  calc (List.range (s.d - 1)).flatMap (afterSwrite s rest cnt payload).member
      = (List.range (s.d - 1)).flatMap (payloadIn s.n payload) :=
        List.flatMap_congr fun k hk => member_afterSwrite_data rest hsize payload (List.mem_range.1 hk)
    _ = payload := by rw [flatMap_payloadIn, ← hc, ← hlen, List.take_length]

end Swrite

/-- Settles O34: the data slots hold the chunks, and the parity slot their parity. -/
theorem swriteResult : Obligations.SwriteResult := by
  intro s t rest cnt ⟨_, ⟨hd, _⟩, hsize, _⟩ hs hr hc
  have hwritten := wellSized_afterSwrite rest hsize hc hs.2
  have hdata : ∀ k < s.d - 1, ∀ j < s.n,
      byteAt ((afterSwrite s rest cnt t.payload).member k) j = byteAt t.payload (k * s.n + j) := fun k hk j hj => by
    rw [member_afterSwrite_data rest hsize t.payload hk, byteAt_payloadIn _ _ hj]
  refine ⟨_, exec_swrite hs hr hc, hwritten.1, hwritten.2, hc ▸ hdata, fun j hj => ?_⟩
  calc byteAt ((afterSwrite s rest cnt t.payload).member (s.d - 1)) j
      = xorBytes ((List.range (s.d - 1)).map fun k => byteAt ((afterSwrite s rest cnt t.payload).member k) j) := by
        rw [member_afterSwrite_parity rest hsize hd]
        exact byteAt_parity hwritten j
    _ = xorBytes ((List.range cnt.toNat).map fun k => byteAt t.payload (k * s.n + j)) := by
        rw [hc, List.map_congr_left fun k hk => hdata k (List.mem_range.1 hk) j hj]

/-- Settles O43: the parity slot is the XOR of the data slots. -/
theorem swriteLeavesClean : Obligations.SwriteLeavesClean := by
  intro s t rest cnt ⟨_, ⟨hd, _⟩, hsize, _⟩ hs hr hc
  exact ⟨_, exec_swrite hs hr hc, clean_afterSwrite rest hsize hd hc hs.2⟩

/-- Settles O44: what SWRITE leaves depends on the build and the payload alone. -/
theorem swriteNeverReadsOldMembers : Obligations.SwriteNeverReadsOldMembers := by
  intro s t rest cnt old ⟨_, _, hsize, _⟩ ⟨_, _, hold, _⟩ hs hr hc
  have hmembers : newMembers { s with members := old } t.payload (.swrite cnt) = newMembers s t.payload (.swrite cnt) :=
    newMembers_swrite_congr (s := s) (u := { s with members := old }) rfl rfl hsize.1 hold.1 _ _
  have hsame : afterSwrite { s with members := old } rest cnt t.payload = afterSwrite s rest cnt t.payload := by
    rw [afterSwrite, hmembers]
    rfl
  exact ⟨_, exec_swrite hs hr hc, hsame ▸ exec_swrite (s := { s with members := old }) hs hr hc⟩

/-! ### SREAD (R134) -/

/-- R134: SREAD completes with count K, and emits the data slots. -/
theorem exec_sread {s : State} {t : Transaction} {rest : List HostEvent} {cnt : Byte} (hs : Serves s t rest 0)
    (hr : Running s) (hc : cnt.toNat = s.d - 1) :
    exec (.sread cnt) s = .next (completedWith s rest s.members 0 s.readData) :=
  exec_completes_of_serves hs (payloadLength_sread _ _) hr nofun (checkCount_none hc)

/-- Settles O35: the data slots are the members before the parity slot. -/
theorem sreadResult : Obligations.SreadResult := by
  intro s t rest cnt ⟨_, _, hsize, _⟩ hs hr hc
  rw [exec_sread hs hr hc, readData_eq hsize.1]
  rfl

/-- R131, R134: SREAD of the members SWRITE has left emits the payload written, whatever the queues hold by then. -/
theorem exec_sread_afterSwrite {s : State} {u : Transaction} {cnt : Byte} {payload : Bytes} (hsize : WellSized s)
    (hr : Running s) (hc : cnt.toNat = s.d - 1) (hlen : payload.length = cnt.toNat * s.n) (hu : u.payload = [])
    (q rest : List HostEvent) (o : List Response) :
    exec (.sread cnt) { afterSwrite s q cnt payload with inbox := .submit u :: rest, outbox := o } =
      .next { afterSwrite s q cnt payload with inbox := rest, outbox := o ++ [⟨0, 0, payload⟩] } := by
  have hread : exec (.sread cnt) { afterSwrite s q cnt payload with inbox := .submit u :: rest, outbox := o } =
      .next { afterSwrite s q cnt payload with
        inbox := rest, outbox := o ++ [⟨0, 0, (afterSwrite s q cnt payload).readData⟩] } :=
    exec_sread ⟨rfl, by rw [hu]; rfl⟩ hr hc
  rwa [readData_afterSwrite q hsize hc hlen] at hread

/-- Settles O49: SREAD emits the slots SWRITE has just written. -/
theorem swriteThenSread : Obligations.SwriteThenSread := by
  intro s t u rest cnt ⟨_, _, hsize, _⟩ hin hlen hu hr hc
  have hread := exec_sread_afterSwrite hsize hr hc hlen hu (.submit u :: rest) rest
    (afterSwrite s (.submit u :: rest) cnt t.payload).outbox
  exact ⟨_, _, exec_swrite ⟨hin, hlen⟩ hr hc, hread, by simp [afterSwrite]⟩

/-! ### Two members (R143) -/

/-- R143: with D = 2 the parity is the XOR of the one data member. -/
theorem parity_of_two {s : State} (hs : WellSized s) (hd : s.d = 2) : s.parity = s.member 0 := by
  have hk : s.k = 1 := by rw [State.k, hd]
  have hlen : (s.member 0).length = s.n := member_length hs (by omega)
  rw [State.parity, hk]
  exact zeroVec_xorVec hlen

/-- R143: with D = 2 there is no data member but the lost one, and the reconstruction is the parity member. -/
theorem recon_of_two {s : State} (hs : WellSized s) (hd : s.d = 2) : s.recon 0 = s.member 1 := by
  have hp : s.p = 1 := by rw [State.p, hd]
  have hk : s.k = 1 := by rw [State.k, hd]
  have hlen : (s.member 1).length = s.n := member_length hs (by omega)
  rw [State.recon, hp, hk, xorVec_comm]
  exact zeroVec_xorVec hlen

/-- R143: with D = 2 the one chunk goes to both members. -/
theorem newMembers_swrite_of_two {s : State} (hs : WellSized s) (hd : s.d = 2) {payload : Bytes}
    (hlen : payload.length = s.n) : newMembers s payload (.swrite 1) = [payload, payload] := by
  have hk : payload.length = (1 : Byte).toNat * s.n := hlen.trans (Nat.one_mul _).symm
  have hwritten : WellSized (afterSwrite s [] 1 payload) := wellSized_afterSwrite [] hs (by rw [hd]; rfl) hk
  have hdata : (afterSwrite s [] 1 payload).member 0 = payload := by
    rw [member_afterSwrite_data [] hs _ (by omega), payloadIn_zero hlen]
  have hparity : (afterSwrite s [] 1 payload).member (s.d - 1) = payload := by
    rw [member_afterSwrite_parity [] hs hd.ge, parity_of_two hwritten hd, hdata]
  rw [hd] at hparity
  refine members_ext (by rw [newMembers_length, hs.1, hd]; rfl) fun m hm => ?_
  match m, hm with
  | 0, _ => exact hdata
  | 1, _ => exact hparity

/-- Settles O48: parity, reconstruction and SWRITE of the stripe with one data member. -/
theorem twoMemberStripeMirrors : Obligations.TwoMemberStripeMirrors := by
  intro s ⟨_, _, hsize, _⟩ hd
  refine ⟨parity_of_two hsize hd, recon_of_two hsize hd, fun t rest hs hr => ?_⟩
  have hlen : t.payload.length = (1 : Byte).toNat * s.n := hs.2.trans (Nat.one_mul _).symm
  rw [exec_swrite ⟨hs.1, hlen⟩ hr (by rw [hd]; rfl), afterSwrite, newMembers_swrite_of_two hsize hd hs.2]

/-! ### Write, lose a member, restore it, read back (R131, R110, R139, R134) -/

/-- R84, R174: a step on an encoded command executes the command. -/
theorem step_of_encoded {s : State} {i : Instr} {payload : Bytes} {rest : List HostEvent} (hi : i.wellFormed = true)
    (hin : s.inbox = .submit ⟨(encode i).1, (encode i).2, payload⟩ :: rest) : step s = exec i s := by
  simp [step, hin, decodeEncodeRoundTrip i hi]

/-- R110, R139: losing a member of a clean stripe and restoring it, two steps, changes nothing but the Host's queues. -/
theorem run_lose_restore {s : State} {garbage : Bytes} {idx : Byte} {rest : List HostEvent} (hsize : WellSized s)
    (hclean : Clean s) (hr : Running s) (hd : idx.toNat < s.d) (hgarbage : garbage.length = s.n)
    (hin : s.inbox =
      .submit ⟨(encode (.vload idx)).1, 0, garbage⟩ :: .submit ⟨(encode (.srestore idx)).1, 0, []⟩ :: rest)
    (k : Nat) :
    Host.Core.run core (k + 2) s = Host.Core.run core k
      { s with inbox := rest, outbox := s.outbox ++ [⟨0, 0, []⟩, ⟨0, 0, []⟩] } := by
  have hlose : step s = .next (State.setMember
      (completedWith s (.submit ⟨(encode (.srestore idx)).1, 0, []⟩ :: rest) s.members 0 []) idx.toNat garbage) :=
    (step_of_encoded rfl hin).trans (vloadResult s _ _ idx ⟨hin, hgarbage⟩ hr hd)
  have hrestore := exec_srestore_lost (rest := rest)
    (s := completedWith s (.submit ⟨(encode (.srestore idx)).1, 0, []⟩ :: rest) s.members 0 [])
    hsize hclean ⟨rfl, rfl⟩ hr hd garbage
  rw [← step_of_encoded (i := .srestore idx) rfl rfl] at hrestore
  refine ((run_succ_of_step hlose _).trans (run_succ_of_step hrestore k)).trans ?_
  simp [completedWith]

/-- Settles O50: SWRITE leaves a clean stripe, which is the same after a member of it was lost and restored. -/
theorem writeLoseRestoreRead : Obligations.WriteLoseRestoreRead := by
  intro s data garbage idx cnt rest ⟨_, ⟨hd, _⟩, hsize, _⟩ hr hidx hc hlen hgarbage hin
  generalize hq : HostEvent.submit ⟨(encode (.vload idx)).1, 0, garbage⟩ :: _ = q at hin
  have hclean : Clean (afterSwrite s q cnt data) := clean_afterSwrite q hsize hd hc hlen
  have hwrite : step s = .next (afterSwrite s q cnt data) :=
    (step_of_encoded rfl hin).trans (exec_swrite ⟨hin, hlen⟩ hr hc)
  have hrestored := run_lose_restore (wellSized_afterSwrite q hsize hc hlen) hclean hr hidx hgarbage hq.symm 1
  have hread := exec_sread_afterSwrite (u := ⟨(encode (.sread cnt)).1, 0, []⟩) hsize hr hc hlen rfl q rest
    ((afterSwrite s q cnt data).outbox ++ [⟨0, 0, []⟩, ⟨0, 0, []⟩])
  rw [← step_of_encoded rfl rfl] at hread
  have hrun := ((run_succ_of_step hwrite 3).trans hrestored).trans (run_succ_of_step hread 0)
  exact ⟨_, hrun, hclean, rfl, by simp [afterSwrite]⟩

end Sys2Proof.Machine

/-! PROOFS. CSRR (42_control.md): the table it reads (R28 to R37), a defined register in either condition (R160, R175), and
the term of a reserved number, which no encoding gives (R29, log 9). -/

namespace Sys2Proof.Machine

/-! ### The table of control registers (R28) -/

/-- R31 to R37: the control registers 0x00 to 0x06, each at the place of its number. -/
def controlRegisters (s : State) : List Word :=
  [1, BitVec.ofNat 32 s.n, BitVec.ofNat 32 s.d, 1, s.status, s.fcmd, s.farg]

/-- R29: a reserved number names no register. -/
theorem csrRead_reserved (s : State) {csr : Byte} (h : ¬ csrDefined csr) : s.csrRead csr = none :=
  Option.not_isSome_iff_eq_none.1 fun hsome => h ((csrRead_isSome s csr).1 hsome)

/-- R28, R29: a control register is read from the table, and a reserved number is past its end. -/
theorem csrRead_eq_getElem? (s : State) (csr : Byte) : s.csrRead csr = (controlRegisters s)[csr.toNat]? := by
  by_cases hdefined : csr.toNat ≤ 6
  · unfold State.csrRead
    generalize csr.toNat = number at hdefined ⊢
    interval_cases number <;> rfl
  · have hpast : (controlRegisters s).length ≤ csr.toNat := Nat.not_le.1 hdefined
    rw [csrRead_reserved s hdefined, List.getElem?_eq_none hpast]

/-- R81: the value word of CSRR, in the words of the table. -/
theorem newValue_csrr (s : State) (csr : Byte) : newValue s (.csrr csr) = (controlRegisters s).getD csr.toNat 0 := by
  rw [newValue, csrRead_eq_getElem?, List.getD_eq_getElem?_getD]

/-! ### Defined and reserved registers (R160) -/

/-- R160, R175: CSRR of a defined register is executed in the running and in the faulted condition. -/
theorem accepts_csrr (s : State) {csr : Byte} (h : csrDefined csr) : Accepts s (.csrr csr) :=
  ⟨by rintro _ ⟨⟩; exact h, fun hne => absurd rfl (hne csr), rfl⟩

/-- Settles O37: the register is read from the table, and its number is all that CSRR asks for. -/
theorem csrrResult : Obligations.CsrrResult := by
  intro s t rest csr hs hcsr
  have hframe : Serves s t rest (payloadLength s.n (.csrr csr)) := by rwa [payloadLength_csrr]
  rw [exec_of_accepts hframe (accepts_csrr s hcsr), newValue_csrr]
  rfl

/-- Log 9: the term CSRR of a reserved number is rejected as an illegal command is. -/
theorem exec_csrr_reserved {s : State} {t : Transaction} {rest : List HostEvent} {csr : Byte} (hs : Serves s t rest 0)
    (h : ¬ csrDefined csr) : exec (.csrr csr) s = .next (({ s with inbox := rest } : State).rejectIllegal t) := by
  show execCsrr csr s = _
  rw [execCsrr, payloadLength_csrr, serve_of_serves hs]
  simp only [csrRead_reserved _ h]

/-- R174, R175: an illegal command as a whole next state, in either condition. -/
theorem rejectIllegal_taken (s : State) (rest : List HostEvent) (t : Transaction) :
    ({ s with inbox := rest } : State).rejectIllegal t =
      if s.status.getLsbD 0 then refusedAnswer s rest else faultedWith s rest t 1 := by
  rw [State.rejectIllegal, refuse_taken, raiseFault_taken]
  rfl

/-- Settles O38: a reserved number names no register, so the term is rejected as the condition of the engine says. -/
theorem csrrReservedNumber : Obligations.CsrrReservedNumber := by
  intro s t rest csr hs hcsr
  rw [exec_csrr_reserved hs (Nat.not_le.2 hcsr), rejectIllegal_taken]

end Sys2Proof.Machine

/-! PROOFS. The execution frame (60_exceptions.md): what a step runs (R174), the first precondition a command violates (R171,
R174), the frame of every transaction in either condition (R173, R174, R175), and what a fault leaves until reset (R179). -/

namespace Sys2Proof.Machine

/-! ### What a step runs (R174) -/

/-- Settles O9: `step` decodes the oldest transaction and dispatches on the answer. -/
theorem stepRunsDecodedCommand : Obligations.StepRunsDecodedCommand := by
  intro s t rest i hin hd
  simp only [step, hin, hd]

/-! ### The first precondition a command violates (R171, R174) -/

/-- R171: a check that passes when `p` holds, as the number of its fault. -/
theorem map_check (p : Prop) [Decidable p] (c : FaultCode) :
    (if p then none else some c).map faultNumber = if ¬ p then some (faultNumber c) else none := by
  by_cases h : p <;> simp [h]

theorem map_checkMember (s : State) (m : Byte) :
    (checkMember s m).map faultNumber = if s.d ≤ m.toNat then some 2 else none := by
  rw [checkMember, map_check]
  simp only [Nat.not_lt, faultNumber]

theorem map_checkCount (s : State) (cnt : Byte) :
    (checkCount s cnt).map faultNumber = if cnt.toNat ≠ s.d - 1 then some 3 else none :=
  map_check _ _

theorem map_checkBit (s : State) (i : Word) :
    (checkBit s i).map faultNumber = if 8 * s.n ≤ i.toNat then some 4 else none := by
  rw [checkBit, map_check]
  simp only [State.nbits, Nat.not_lt, faultNumber]

/-- R174: every command makes its checks in the frame's order, so its first failing check is the violation the frame reports.
Several bad member fields of one command (R106, R108) are one violation, which is `ite_or`. -/
theorem map_precheck (s : State) (i : Instr) : (precheck s i).map faultNumber = violation s.n s.d i := by
  cases i <;>
    simp [precheck, violation, memberFields, countField, bitField, Option.map_or, map_checkMember, map_checkCount,
      map_checkBit, apply_ite_left Option.or, ite_or]

theorem precheck_eq_none_of_violation {s : State} {i : Instr} (h : violation s.n s.d i = none) : precheck s i = none :=
  Option.map_eq_none_iff.1 ((map_precheck s i).trans h)

theorem precheck_of_violation {s : State} {i : Instr} {code : BitVec 4} (h : violation s.n s.d i = some code) :
    ∃ c, precheck s i = some c ∧ faultNumber c = code :=
  Option.map_eq_some_iff.1 ((map_precheck s i).trans h)

/-! ### Every answer of the frame (R173, R174, R175) -/

section Frame

variable {s : State} {t : Transaction} {rest : List HostEvent} {i : Instr}

/-- R78, R174: a framed transaction is framed for the command it decodes to. -/
theorem serves_of_decode (hs : Serves s t rest (lIn s.n t.cmd)) (hd : decode t.cmd t.arg = .command i) :
    Serves s t rest (payloadLength s.n i) :=
  ⟨hs.1, hs.2.trans (payloadLength_of_decode s.n hd).symm⟩

/-- R77, R174, R175: an illegal encoding, in either condition. -/
theorem step_of_illegal {why : IllegalReason} (hs : Serves s t rest (lIn s.n t.cmd))
    (hd : decode t.cmd t.arg = .illegal why) :
    step s = .next (if s.status.getLsbD 0 then refusedAnswer s rest else faultedWith s rest t 1) := by
  have hstep : step s = runIllegal s t := by simp only [step, hs.1, hd]
  rw [hstep, runIllegal, serve_of_serves hs, rejectIllegal_taken]

/-- R174: a command that the engine executes completes. -/
theorem step_of_accepts (hs : Serves s t rest (lIn s.n t.cmd)) (hd : decode t.cmd t.arg = .command i)
    (ha : Accepts s i) :
    step s = .next (completedWith s rest (newMembers s t.payload i) (newValue s i) (newOutput s i)) := by
  rw [stepRunsDecodedCommand s t rest i hs.1 hd, exec_of_accepts (serves_of_decode hs hd) ha]

/-- R173, R174: while running, a command faults with the code of the first precondition it violates. -/
theorem step_of_violation {code : BitVec 4} (hs : Serves s t rest (lIn s.n t.cmd)) (hr : Running s)
    (hd : decode t.cmd t.arg = .command i) (hv : violation s.n s.d i = some code) :
    step s = .next (faultedWith s rest t code) := by
  obtain ⟨c, hc, rfl⟩ := precheck_of_violation hv
  have hi : ∀ csr, i ≠ .csrr csr := by
    rintro csr rfl
    cases hc
  rw [stepRunsDecodedCommand s t rest i hs.1 hd, exec_eq_transact i s hi,
    transact_faults _ (serves_of_decode hs hd) hr hc, raiseFault_taken]

/-- R174: while running, a command that violates nothing is executed. -/
theorem accepts_of_running (hr : Running s) (hd : decode t.cmd t.arg = .command i) (hv : violation s.n s.d i = none) :
    Accepts s i :=
  ⟨by rintro csr rfl; exact decode_csrr_defined hd, fun _ => hr, precheck_eq_none_of_violation hv⟩

/-- R175: while faulted, everything but a legal CSRR is refused. -/
theorem step_of_faulted (hs : Serves s t rest (lIn s.n t.cmd)) (hf : s.faulted = true)
    (hne : ∀ csr, decode t.cmd t.arg ≠ .command (.csrr csr)) : step s = .next (refusedAnswer s rest) := by
  cases hd : decode t.cmd t.arg with
  | illegal why => exact (step_of_illegal hs hd).trans (congrArg Host.Outcome.next (if_pos hf))
  | command i =>
    have hi : ∀ csr, i ≠ .csrr csr := fun csr hcsr => hne csr (by rw [hd, hcsr])
    rw [stepRunsDecodedCommand s t rest i hs.1 hd, exec_eq_transact i s hi,
      transact_refuses _ (serves_of_decode hs hd) hf, refuse_taken]

end Frame

/-- Settles O10: each clause is one answer of the frame. -/
theorem transactionFrame : Obligations.TransactionFrame := by
  intro s t rest hs
  refine ⟨fun hnr => ?_, fun hr => ?_⟩
  · have hf : s.faulted = true := Bool.eq_true_of_not_eq_false hnr
    refine ⟨fun csr hd => ?_, step_of_faulted hs hf⟩
    have hdefined : csrDefined csr := decode_csrr_defined hd
    exact ⟨newValue s (.csrr csr), csrRead_eq_newValue s hdefined, step_of_accepts hs hd (accepts_csrr s hdefined)⟩
  · refine ⟨fun why hd => ?_, fun i hd => ⟨fun code hv => step_of_violation hs hr hd hv, fun hv => ?_⟩⟩
    · rw [step_of_illegal hs hd, hr]
      rfl
    · exact ⟨_, _, _, step_of_accepts hs hd (accepts_of_running hr hd hv)⟩

/-! ### What a fault leaves until reset (R175, R179) -/

/-- Settles O19: a faulted engine that is not reset waits, refuses, or completes a CSRR, which reads only. -/
theorem firstFaultSurvivesUntilReset : Obligations.FirstFaultSurvivesUntilReset := by
  intro s s' hnr hreset h
  obtain ⟨-, rfl⟩ | ⟨rest, hin, -⟩ | ⟨t, rest, -, hcases⟩ := step_cases h
  · exact ⟨rfl, rfl, rfl, rfl⟩
  · exact absurd hin (hreset rest)
  · obtain ⟨-, -, rfl⟩ | ⟨hrun, -⟩ | ⟨i, -, hrun | ⟨csr, rfl⟩, -, -, rfl⟩ := hcases
    · exact ⟨rfl, rfl, rfl, rfl⟩
    · exact absurd hrun hnr
    · exact absurd hrun hnr
    · exact ⟨rfl, rfl, rfl, rfl⟩

end Sys2Proof.Machine

/-! PROOFS. Reset and waiting (70_reset_and_hazards.md): what a reset leaves and what ends the faulted condition (R179, R200),
and the engine with nothing submitted (R203). -/

namespace Sys2Proof.Machine

/-! ### Waiting (R203) -/

theorem step_of_empty {s : State} (hin : s.inbox = []) : step s = .next s := by
  simp [step, hin]

/-- Settles O12: the wait of log 2 is the whole step. -/
theorem emptyInboxWaits : Obligations.EmptyInboxWaits :=
  fun _ hin => step_of_empty hin

/-! ### Reset (R179, R200) -/

/-- R179: a step from faulted to running would change STATUS, which only a reset does while faulted. -/
theorem exists_reset_of_fault_ended {s s' : State} (hnr : ¬ Running s) (h : step s = .next s') (hr : Running s') :
    ∃ rest, s.inbox = .reset :: rest := by
  by_contra hne
  obtain ⟨-, hstatus, -, -⟩ := firstFaultSurvivesUntilReset s s' hnr (not_exists.1 hne) h
  rw [Running, hstatus] at hr
  exact hnr hr

/-- Settles O18: the reset state of the build for the one direction, the fault record that survives any other step for the
other. -/
theorem resetAloneEndsFault : Obligations.ResetAloneEndsFault :=
  ⟨fun s _ hin => ⟨step_of_reset hin, clean_resetFor s.n s.d, running_resetFor s.n s.d⟩,
    fun _ _ => exists_reset_of_fault_ended⟩

end Sys2Proof.Machine
